-- ==== Sys2Proof/Word.lean ====
section
/-! DEFINITION. The cell type: one signed 64-bit integer (00_scope R5, R10; 10_state R22). -/

namespace Sys2Proof

/-- One memory cell, a value of INT64 (10_state R22). The 64-bit vectors are exactly the integers of
`[-2^63, 2^63 - 1]` through `BitVec.toInt`, so no value outside INT64 can be written down. No rule looks at a
cell's bits: every rule reads a cell through `toInt` and writes one through `Cell.ofInt` (log 1). -/
abbrev Cell : Type := BitVec 64

/-- `fits64(v)` of 00_scope R10: the exact integer `v` is in INT64. -/
abbrev fits64 (v : Int) : Prop := -2 ^ 63 ≤ v ∧ v < 2 ^ 63

/-- The cell that holds the integer `v`. It is used only where `fits64 v` has been checked. -/
def Cell.ofInt (v : Int) : Cell := BitVec.ofInt 64 v

end Sys2Proof
end

