-- ==== Sys2Proof/Config.lean ====
section
/-! DEFINITION. The implementation parameters (00_scope R6, R7, R8) and their defaults. -/

namespace Sys2Proof

/-- `MEM_POLICY` (00_scope R6): dynamic growth, or the source repository's preallocated buffer. -/
inductive MemPolicy where
  | grow
  | fixed
deriving DecidableEq, Repr

/-- `EXTRA_MODE_DIGITS` (00_scope R8): what a nonzero decimal digit above the operands' mode digits does. -/
inductive ExtraDigits where
  | ignore
  | fault
deriving DecidableEq, Repr

/-- The parameters of every rule (00_scope R6 to R8; 10_state R20). -/
structure Config where
  /-- `MEM_POLICY`. -/
  memPolicy : MemPolicy
  /-- `CAP`, in cells; `none` is the infinite capacity. -/
  cap : Option Nat
  /-- `EXTRA_MODE_DIGITS`. -/
  extraDigits : ExtraDigits
deriving DecidableEq, Repr

/-- The defaults: Grow, unbounded, Ignore (00_scope R6, R7, R8). -/
def Config.default : Config := { memPolicy := .grow, cap := none, extraDigits := .ignore }

/-- The settings construction accepts: under Fixed, CAP must be finite (00_scope R7, 70_reset R172). -/
def Config.acceptable (c : Config) : Bool := c.memPolicy == .grow || c.cap.isSome

end Sys2Proof
end

