-- ==== Sys2Proof/Syntax.lean ====
section
/-! DEFINITION. Instructions as syntax: one constructor per row of the opcode table (30_encoding R67). -/

namespace Sys2Proof

/-- A mode digit (30_encoding R63). 0, 1 and 2 have a meaning; the digits 3 to 9 are illegal, and an instruction
that holds one faults when it is executed, after its earlier operands have been resolved (R69; 60_exceptions R135).
So the syntax keeps them: `illegal e` is the digit `3 + e`. -/
inductive Mode where
  | position
  | immediate
  | relative
  | illegal (excess : Fin 7)
deriving DecidableEq, Repr

/-- An operand: "a (mode, literal) pair" (00_scope R15). The literal is a whole cell (30_encoding R66). -/
structure Operand where
  mode : Mode
  lit : Cell
deriving DecidableEq, Repr

/-- The ten opcodes (30_encoding R67). -/
inductive Opcode where
  | add | mul | inp | out | jt | jf | lt | eq | arb | hlt
deriving DecidableEq, Repr

/-- The instructions, with their operands in order (30_encoding R67). -/
inductive Instr where
  /-- ADD, opcode 1 (40_alu R91). -/
  | add (a b dst : Operand)
  /-- MUL, opcode 2 (40_alu R92). -/
  | mul (a b dst : Operand)
  /-- IN, opcode 3 (41_io R102). -/
  | inp (dst : Operand)
  /-- OUT, opcode 4 (41_io R103). -/
  | out (a : Operand)
  /-- JT, opcode 5 (42_control R110). -/
  | jt (a target : Operand)
  /-- JF, opcode 6 (42_control R111). -/
  | jf (a target : Operand)
  /-- LT, opcode 7 (40_alu R93). -/
  | lt (a b dst : Operand)
  /-- EQ, opcode 8 (40_alu R94). -/
  | eq (a b dst : Operand)
  /-- ARB, opcode 9 (43_base_halt R120). -/
  | arb (a : Operand)
  /-- HLT, opcode 99 (43_base_halt R121). -/
  | hlt
deriving DecidableEq, Repr

/-- The opcode of an instruction. -/
def Instr.op : Instr → Opcode
  | .add _ _ _ => .add
  | .mul _ _ _ => .mul
  | .inp _ => .inp
  | .out _ => .out
  | .jt _ _ => .jt
  | .jf _ _ => .jf
  | .lt _ _ _ => .lt
  | .eq _ _ _ => .eq
  | .arb _ => .arb
  | .hlt => .hlt

/-- The operands of an instruction, in order (30_encoding R67). -/
def Instr.operands : Instr → List Operand
  | .add a b d => [a, b, d]
  | .mul a b d => [a, b, d]
  | .inp d => [d]
  | .out a => [a]
  | .jt a t => [a, t]
  | .jf a t => [a, t]
  | .lt a b d => [a, b, d]
  | .eq a b d => [a, b, d]
  | .arb a => [a]
  | .hlt => []

end Sys2Proof
end

