-- ==== Sys2Proof/WellFormed.lean ====
section
/-! DEFINITION. Which instructions have a legal word (30_encoding R63, R67, R68). -/

namespace Sys2Proof

/-- The mode has a meaning: its digit is 0, 1 or 2 (30_encoding R63). -/
def Mode.legal : Mode → Bool
  | .position => true
  | .immediate => true
  | .relative => true
  | .illegal _ => false

/-- A read operand may use modes 0, 1 and 2 (30_encoding R67). -/
def Operand.readable (o : Operand) : Bool := o.mode.legal

/-- A write operand may use modes 0 and 2 (30_encoding R67). -/
def Operand.writable (o : Operand) : Bool := o.mode.legal && o.mode != .immediate

/-- Every mode digit is legal for its operand's access (30_encoding R68). -/
def Instr.wellFormed : Instr → Bool
  | .add a b d => a.readable && b.readable && d.writable
  | .mul a b d => a.readable && b.readable && d.writable
  | .inp d => d.writable
  | .out a => a.readable
  | .jt a t => a.readable && t.readable
  | .jf a t => a.readable && t.readable
  | .lt a b d => a.readable && b.readable && d.writable
  | .eq a b d => a.readable && b.readable && d.writable
  | .arb a => a.readable
  | .hlt => true

end Sys2Proof
end

