-- ==== Sys2Proof/Decode.lean ====
section
/-! DEFINITION. The decimal decoder and the encoder (30_encoding R60 to R72). -/

namespace Sys2Proof

/-- The number of an opcode (30_encoding R67). -/
def Opcode.number : Opcode → Nat
  | .add => 1
  | .mul => 2
  | .inp => 3
  | .out => 4
  | .jt => 5
  | .jf => 6
  | .lt => 7
  | .eq => 8
  | .arb => 9
  | .hlt => 99

/-- The opcode map read from a number; every number outside it is illegal (30_encoding R67, R69). -/
def Opcode.ofNumber : Nat → Option Opcode
  | 1 => some .add
  | 2 => some .mul
  | 3 => some .inp
  | 4 => some .out
  | 5 => some .jt
  | 6 => some .jf
  | 7 => some .lt
  | 8 => some .eq
  | 9 => some .arb
  | 99 => some .hlt
  | _ => none

/-- The operand count `n`, which the opcode alone fixes (30_encoding R65). -/
def Opcode.count : Opcode → Nat
  | .add => 3
  | .mul => 3
  | .inp => 1
  | .out => 1
  | .jt => 2
  | .jf => 2
  | .lt => 3
  | .eq => 3
  | .arb => 1
  | .hlt => 0

/-- The instruction length in cells, `1 + n` (30_encoding R65). -/
def Opcode.length (op : Opcode) : Nat := 1 + op.count

/-- The instruction of an opcode and three operands, of which it keeps its own `n`. -/
def Opcode.instr (op : Opcode) (a b c : Operand) : Instr :=
  match op with
  | .add => .add a b c
  | .mul => .mul a b c
  | .inp => .inp a
  | .out => .out a
  | .jt => .jt a b
  | .jf => .jf a b
  | .lt => .lt a b c
  | .eq => .eq a b c
  | .arb => .arb a
  | .hlt => .hlt

/-- The mode of a decimal digit (30_encoding R63). -/
def Mode.ofDigit : Nat → Mode
  | 0 => .position
  | 1 => .immediate
  | 2 => .relative
  | d + 3 => .illegal (Fin.ofNat 7 d)

/-- The decimal digit of a mode (30_encoding R63). -/
def Mode.digit : Mode → Nat
  | .position => 0
  | .immediate => 1
  | .relative => 2
  | .illegal e => 3 + e.val

/-- The digit of the mode of operand `p`: `(w div 10^(p+1)) mod 10` (30_encoding R62). -/
def modeDigit (w p : Nat) : Nat := w / 10 ^ (p + 1) % 10

/-- Why a word is no instruction. The machine faults on it when it executes it (30_encoding R69, R74). -/
inductive DecodeReject where
  /-- The word is negative and so has no opcode (30_encoding R61). -/
  | negativeWord
  /-- The word's low two digits are `number`, which is outside the opcode map (30_encoding R67). -/
  | unsupportedOpcode (number : Nat)
  /-- Under `EXTRA_MODE_DIGITS = Fault`, a nonzero digit lies above the operands of `op` (30_encoding R64). -/
  | extraDigits (op : Opcode)
deriving DecidableEq, Repr

/-- The instruction of a word and the three cells after it, of which the instruction keeps as many literals as it has
operands (30_encoding R61 to R66; steps 4 and 5 of R74). A mode digit 3 to 9 is kept as it stands: the fault it
raises belongs to the execution of the instruction, after the operands before it (60_exceptions R135). -/
def decode (x : ExtraDigits) (w l1 l2 l3 : Cell) : Except DecodeReject Instr :=
  if w.toInt < 0 then .error .negativeWord
  else
    let n := w.toNat
    match Opcode.ofNumber (n % 100) with
    | none => .error (.unsupportedOpcode (n % 100))
    | some op =>
      if x = .fault ∧ n / 10 ^ (op.count + 2) ≠ 0 then .error (.extraDigits op)
      else .ok (op.instr ⟨.ofDigit (modeDigit n 1), l1⟩ ⟨.ofDigit (modeDigit n 2), l2⟩ ⟨.ofDigit (modeDigit n 3), l3⟩)

/-- Why a list of cells does not begin with an instruction. -/
inductive ListReject where
  /-- The list ends before the instruction's word and literals do. -/
  | truncated
  /-- The first cell is no instruction word. -/
  | word (r : DecodeReject)
deriving DecidableEq, Repr

/-- The instruction at the head of a list of cells, and the cells after it (30_encoding R60, R65). -/
def decodeCells (x : ExtraDigits) : List Cell → Except ListReject (Instr × List Cell)
  | [] => .error .truncated
  | w :: rest =>
    match decode x w (rest.getD 0 0) (rest.getD 1 0) (rest.getD 2 0) with
    | .error r => .error (.word r)
    | .ok i => if rest.length < i.op.count then .error .truncated else .ok (i, rest.drop i.op.count)

/-- The instruction word `op + 100·m1 + 1000·m2 + 10000·m3`; absent operands have digit 0 (30_encoding R68, R71). -/
def Instr.word (i : Instr) : Nat :=
  match i.operands with
  | [a, b, c] => i.op.number + 100 * a.mode.digit + 1000 * b.mode.digit + 10000 * c.mode.digit
  | [a, b] => i.op.number + 100 * a.mode.digit + 1000 * b.mode.digit
  | [a] => i.op.number + 100 * a.mode.digit
  | _ => i.op.number

/-- The cells of an instruction: the word, then the literals in operand order; no extra digits (30_encoding R71). -/
def encode (i : Instr) : List Cell := BitVec.ofNat 64 i.word :: i.operands.map Operand.lit

/-- Cell `k` of an instruction whose bits are `w`, bit 0 the least significant bit of the first cell. -/
def tableCell (nbits w k : Nat) : Cell := BitVec.ofNat 64 (w % 2 ^ nbits / 2 ^ (64 * k))

/-- The instruction the decoder reads from the cells whose bits are `w`, every bit from `nbits` up being 0. Each cell is
64 bits of the number; there is no byte order to apply (20_memory R41). The configuration is the default one. -/
def decodeTableWord (nbits w : Nat) : Option Instr :=
  match decode Config.default.extraDigits (tableCell nbits w 0) (tableCell nbits w 1) (tableCell nbits w 2)
      (tableCell nbits w 3) with
  | .ok i => some i
  | .error _ => none

end Sys2Proof
end

