-- ==== Sys2Proof/Machine/State.lean ====
section
/-! DEFINITION. The state of one instance (10_state R20), its fault records (60_exceptions R130, R131), and reset. -/

namespace Sys2Proof.Machine

/-- The fault kinds, and no others (60_exceptions R130). -/
inductive FaultCode where
  | unsupportedOpcode
  | invalidMode
  | invalidDestination
  | addressUnderflow
  | outOfCapacity
  | arithmeticOverflow
deriving DecidableEq, Repr

/-- A fault record `f = {code, pc, word, opcode, operand}` (60_exceptions R131). -/
structure FaultRecord where
  code : FaultCode
  /-- The address of the faulting instruction, or the pc that could not be fetched. -/
  pc : Int
  /-- The instruction word; `none` when the pc was negative. -/
  word : Option Cell
  /-- `w mod 100`; `none` when no opcode was decoded. -/
  opcode : Option Nat
  /-- The 1-based position of the operand being resolved, or `none`. -/
  operand : Option Nat
deriving DecidableEq, Repr

/-- The machine status (10_state R27). Suspension is not a status. -/
inductive Status where
  | ready
  | halted
  | faulted (f : FaultRecord)
deriving DecidableEq, Repr

/-- What a cell that no entry lists reads as: "A cell never written reads 0" (10_state R23). -/
abbrev unlistedCell : Cell := 0

/-- Memory (10_state R23): the nonzero cells, at strictly rising addresses. `Memory.wf` states that form. -/
abbrev Memory : Type := List (Nat × Cell)

/-- The state of one instance (10_state R20), and the configuration its rules are read under (log 2). -/
structure State where
  /-- The parameters (00_scope R6 to R8). Not state of the machine: nothing writes it. -/
  cfg : Config
  /-- `mem` (10_state R23). -/
  mem : Memory
  /-- `E`, the extent (10_state R24). -/
  ext : Nat
  /-- `pc` (10_state R25): an integer of `[-2^63, 2^63]`. -/
  pc : Int
  /-- `rb` (10_state R26). -/
  rb : Cell
  /-- `status` (10_state R27). -/
  status : Status
  /-- `inq`, oldest value first (10_state R28). -/
  inq : List Cell
  /-- `outq`, oldest value first (10_state R29). -/
  outq : List Cell
deriving DecidableEq, Repr

/-- How a step can end other than in a next state. A fault of an instruction is NOT one of these: its entry is a next
state whose status is `faulted f` (60_exceptions R132). -/
inductive Fault where
  /-- Raised by `step` alone, in a state whose status is already `faulted f`: the instance has crashed, no further step is
  defined (30_encoding R73), and what a resume answers is this record (60_exceptions R133, R140). Safe: the machine
  stops where the spec says that nothing runs or changes. -/
  | faulted (f : FaultRecord)
deriving DecidableEq, Repr

/-- Why the model has no meaning for an instruction. -/
inductive Refusal where
  /-- Raised by an arm of `exec` whose instruction has no meaning yet; no arm raises it. Safe: the model stops. -/
  | notModelled (mnemonic : String)
deriving DecidableEq, Repr

/-- `mem <- m` (00_scope R12), and so for each setter below. -/
def State.setMem (s : State) (m : Memory) : State := { s with mem := m }
/-- `E <- e`. -/
def State.setExt (s : State) (e : Nat) : State := { s with ext := e }
/-- `pc <- p`. -/
def State.setPc (s : State) (p : Int) : State := { s with pc := p }
/-- `rb <- r`. -/
def State.setRb (s : State) (r : Cell) : State := { s with rb := r }
/-- `status <- st`. -/
def State.setStatus (s : State) (st : Status) : State := { s with status := st }
/-- `inq <- q`. -/
def State.setInq (s : State) (q : List Cell) : State := { s with inq := q }
/-- `outq <- q`. -/
def State.setOutq (s : State) (q : List Cell) : State := { s with outq := q }

/-- The machine right after reset: construction (70_reset R170) with an empty program and no input under the default
configuration, each field at the value of 10_state R33 with `N = 0`. Log 4 says how a program comes to run. -/
def State.reset : State :=
  { cfg := Config.default, mem := [], ext := 0, pc := 0, rb := 0, status := .ready, inq := [], outq := [] }

end Sys2Proof.Machine
end

