-- ==== Sys2Proof/Machine/Ops.lean ====
section
/-! DEFINITION. Memory, the access check and growth, fault entry, and how an instruction ends. -/

namespace Sys2Proof.Machine

/-- The cell at an address; one never written reads 0 (10_state R23). -/
def Memory.read : Memory → Nat → Cell
  | [], _ => unlistedCell
  | (b, u) :: m, a => if a = b then u else Memory.read m a

/-- `mem[a] <- v`, in canonical form: writing what an unlisted address reads as removes the entry. -/
def Memory.write : Memory → Nat → Cell → Memory
  | [], a, v => if v = unlistedCell then [] else [(a, v)]
  | (b, u) :: m, a, v =>
    if a < b then (if v = unlistedCell then (b, u) :: m else (a, v) :: (b, u) :: m)
    else if a = b then (if v = unlistedCell then m else (a, v) :: m)
    else (b, u) :: Memory.write m a v

/-- The canonical form: addresses strictly rise, and no entry equals what an unlisted address reads as. -/
def Memory.wf : Memory → Bool
  | [] => true
  | (b, u) :: m => u != unlistedCell && m.all (fun e => b < e.1) && Memory.wf m

/-- Cells written one after another from address `a` up. -/
def Memory.writeList : Memory → Nat → List Cell → Memory
  | m, _, [] => m
  | m, a, v :: vs => Memory.writeList (m.write a v) (a + 1) vs

/-- `ADDR_LIMIT` (20_memory R43): `min(CAP, 2^63)` under Grow, the extent under Fixed. -/
def State.addrLimit (s : State) : Nat :=
  match s.cfg.memPolicy with
  | .grow =>
    match s.cfg.cap with
    | none => 2 ^ 63
    | some c => min c (2 ^ 63)
  | .fixed => s.ext

/-- What `raise Fault(code, info)` says at an operand: the code, and the position of the operand being resolved. The
rest of the record is the same for the whole instruction (`State.recordAt`). -/
structure Trap where
  code : FaultCode
  operand : Option Nat
deriving DecidableEq, Repr

/-- The numeric codes 1 to 6 of the fault kinds (60_exceptions R130). -/
def FaultCode.number : FaultCode → Nat
  | .unsupportedOpcode => 1
  | .invalidMode => 2
  | .invalidDestination => 3
  | .addressUnderflow => 4
  | .outOfCapacity => 5
  | .arithmeticOverflow => 6

/-- The fault record of a trap raised by the instruction at the pc, whose opcode is `op` (60_exceptions R131). The word
is the cell at the pc (log 5). -/
def State.recordAt (s : State) (op : Opcode) (t : Trap) : FaultRecord :=
  { code := t.code, pc := s.pc, word := some (s.mem.read s.pc.toNat), opcode := some op.number, operand := t.operand }

/-- Fault entry (60_exceptions R132): the status alone changes. There is no vector, no saved register, no mode change and
no handler, so there is no return from it either: a fault is permanent (R133). -/
def State.takeFault (s : State) (f : FaultRecord) : State := s.setStatus (.faulted f)

/-- `CheckAddr(a)` under the pending extent `eNew`, for operand `p`; it answers the new pending extent (20_memory R43,
growth R44, capacity R45). -/
def State.checkAddr (s : State) (eNew p : Nat) (a : Int) : Except Trap Nat :=
  if a < 0 then .error ⟨.addressUnderflow, some p⟩
  else if (s.addrLimit : Int) ≤ a then .error ⟨.outOfCapacity, some p⟩
  else .ok (if s.cfg.memPolicy = .grow ∧ (eNew : Int) ≤ a then a.toNat + 1 else eNew)

/-- `MemRead(a, 1)` (20_memory R46): the cell and the new pending extent. -/
def State.memRead (s : State) (eNew p : Nat) (a : Int) : Except Trap (Cell × Nat) :=
  match s.checkAddr eNew p a with
  | .error t => .error t
  | .ok e => .ok (s.mem.read a.toNat, e)

/-- `MemWrite(a, 1, v)` (20_memory R47): the memory after it and the new pending extent. -/
def State.memWrite (s : State) (eNew p : Nat) (a : Int) (v : Cell) : Except Trap (Memory × Nat) :=
  match s.checkAddr eNew p a with
  | .error t => .error t
  | .ok e => .ok (s.mem.write a.toNat v, e)

/-- The commit of an instruction that completes (30_encoding R76): `E <- E_new` and the one write of `pc`. Its other
effects stand in `s` already. -/
def State.commit (s : State) (eNew : Nat) (pc : Int) : State := (s.setExt eNew).setPc pc

/-- How an instruction of opcode `op` ends at `s` (30_encoding R76): with all its effects, or with the fault entry and no
effect (60_exceptions R132). -/
def State.finish (s : State) (op : Opcode) (r : Except Trap State) : Host.Outcome State Fault Refusal :=
  match r with
  | .ok t => .next t
  | .error t => .next (s.takeFault (s.recordAt op t))

end Sys2Proof.Machine
end

