-- ==== Sys2Proof/Machine/Operands.lean ====
section
/-! DEFINITION. Operand resolution: every mode, for read and for write operands (20_memory R50, R51). -/

namespace Sys2Proof.Machine

/-- `FetchLit(p)` (20_memory R43): the literal, which the decoder has taken from `mem[pc + p]`, unless its address is at
or above the limit. It never grows memory. -/
def State.fetchLit (s : State) (p : Nat) (o : Operand) : Except Trap Cell :=
  if (s.addrLimit : Int) ≤ s.pc + p then .error ⟨.outOfCapacity, some p⟩ else .ok o.lit

/-- `ReadOperand(p)` (20_memory R50): the mode check, the literal fetch, then the access (30_encoding R75). It answers
the value and the new pending extent. -/
def State.readOperand (s : State) (eNew p : Nat) (o : Operand) : Except Trap (Cell × Nat) :=
  match o.mode with
  | .illegal _ => .error ⟨.invalidMode, some p⟩
  | .position =>
    match s.fetchLit p o with
    | .error t => .error t
    | .ok l => s.memRead eNew p l.toInt
  | .immediate =>
    match s.fetchLit p o with
    | .error t => .error t
    | .ok l => .ok (l, eNew)
  | .relative =>
    match s.fetchLit p o with
    | .error t => .error t
    | .ok l => s.memRead eNew p (l.toInt + s.rb.toInt)

/-- The last part of `DstAddr`: the address check, and the checked address with the new pending extent. -/
def State.checkDst (s : State) (eNew p : Nat) (a : Int) : Except Trap (Int × Nat) :=
  match s.checkAddr eNew p a with
  | .error t => .error t
  | .ok e => .ok (a, e)

/-- `DstAddr(p)` (20_memory R51): the write address and the new pending extent. -/
def State.dstAddr (s : State) (eNew p : Nat) (o : Operand) : Except Trap (Int × Nat) :=
  match o.mode with
  | .illegal _ => .error ⟨.invalidMode, some p⟩
  | .position =>
    match s.fetchLit p o with
    | .error t => .error t
    | .ok l => s.checkDst eNew p l.toInt
  | .immediate =>
    match s.fetchLit p o with
    | .error t => .error t
    | .ok _ => .error ⟨.invalidDestination, some p⟩
  | .relative =>
    match s.fetchLit p o with
    | .error t => .error t
    | .ok l => s.checkDst eNew p (l.toInt + s.rb.toInt)

end Sys2Proof.Machine
end

