-- ==== Sys2Proof/Machine/Flags.lean ====
section
/-! DEFINITION. The machine has no flags (10_state R30). What stands in their place: the result of a comparison, and the
overflow check of a computed result. -/

namespace Sys2Proof.Machine

/-- `[c]`: 1 if the condition holds and 0 otherwise (00_scope R11). -/
def truthValue (c : Bool) : Int := if c then 1 else 0

/-- A result that is to be stored: a value outside INT64 raises ARITHMETIC_OVERFLOW, with no operand in its record
(40_alu R90; 60_exceptions R131). -/
def checkedResult (r : Int) : Except Trap Cell :=
  if fits64 r then .ok (Cell.ofInt r) else .error ⟨.arithmeticOverflow, none⟩

end Sys2Proof.Machine
end

