-- ==== Sys2Proof/Machine/Alu.lean ====
section
/-! DEFINITION. ADD, MUL, LT, EQ (40_alu R90 to R95). -/

namespace Sys2Proof.Machine

/-- The shared pseudocode of the four instructions (40_alu R91 to R94): resolve `a`, `b` and `dst` in order, compute the
exact result `f x y`, check it, store it, advance by 4. Both reads stand before the write (R95). -/
def aluResult (f : Int → Int → Int) (a b dst : Operand) (s : State) : Except Trap State :=
  match s.readOperand s.ext 1 a with
  | .error t => .error t
  | .ok (x, e1) =>
    match s.readOperand e1 2 b with
    | .error t => .error t
    | .ok (y, e2) =>
      match s.dstAddr e2 3 dst with
      | .error t => .error t
      | .ok (d, e3) =>
        match checkedResult (f x.toInt y.toInt) with
        | .error t => .error t
        | .ok r =>
          match s.memWrite e3 3 d r with
          | .error t => .error t
          | .ok (m, e4) => .ok ((s.setMem m).commit e4 (s.pc + 4))

/-- ADD (40_alu R91). -/
def execAdd (a b dst : Operand) (s : State) : Host.Outcome State Fault Refusal :=
  s.finish .add (aluResult (fun x y => x + y) a b dst s)

/-- MUL (40_alu R92). -/
def execMul (a b dst : Operand) (s : State) : Host.Outcome State Fault Refusal :=
  s.finish .mul (aluResult (fun x y => x * y) a b dst s)

/-- LT (40_alu R93): a signed comparison. -/
def execLt (a b dst : Operand) (s : State) : Host.Outcome State Fault Refusal :=
  s.finish .lt (aluResult (fun x y => truthValue (x < y)) a b dst s)

/-- EQ (40_alu R94). -/
def execEq (a b dst : Operand) (s : State) : Host.Outcome State Fault Refusal :=
  s.finish .eq (aluResult (fun x y => truthValue (x = y)) a b dst s)

end Sys2Proof.Machine
end

