-- ==== Sys2Proof/Machine/BaseHalt.lean ====
section
/-! DEFINITION. ARB and HLT (43_base_halt R120 to R123). -/

namespace Sys2Proof.Machine

/-- ARB (43_base_halt R120): `rb <- rb + x`, exact; outside INT64 it raises ARITHMETIC_OVERFLOW. The operand is read
relative to the old `rb`. -/
def execArb (a : Operand) (s : State) : Host.Outcome State Fault Refusal :=
  s.finish .arb
    (match s.readOperand s.ext 1 a with
    | .error t => .error t
    | .ok (x, e1) =>
      match checkedResult (s.rb.toInt + x.toInt) with
      | .error t => .error t
      | .ok r => .ok ((s.setRb r).commit e1 (s.pc + 2)))

/-- The halt that HLT and the implicit halt share (43_base_halt R121, R122): the status alone changes. -/
def State.halt (s : State) : State := s.setStatus .halted

/-- HLT (43_base_halt R121): the pc stays at its address. -/
def execHlt (s : State) : Host.Outcome State Fault Refusal := .next s.halt

end Sys2Proof.Machine
end

