-- ==== Sys2Proof/Machine/Control.lean ====
section
/-! DEFINITION. JT and JF (42_control R110 to R113). -/

namespace Sys2Proof.Machine

/-- The shared pseudocode of the two jumps (42_control R110, R111): both operands are resolved whether or not the jump is
taken; the target goes to the pc unchecked (R112); otherwise the pc advances by 3. -/
def jumpResult (taken : Int → Bool) (a target : Operand) (s : State) : Except Trap State :=
  match s.readOperand s.ext 1 a with
  | .error t => .error t
  | .ok (x, e1) =>
    match s.readOperand e1 2 target with
    | .error t => .error t
    | .ok (y, e2) => .ok (s.commit e2 (if taken x.toInt then y.toInt else s.pc + 3))

/-- JT (42_control R110): taken when the value is not 0. -/
def execJt (a target : Operand) (s : State) : Host.Outcome State Fault Refusal :=
  s.finish .jt (jumpResult (fun x => x ≠ 0) a target s)

/-- JF (42_control R111): taken when the value is 0. -/
def execJf (a target : Operand) (s : State) : Host.Outcome State Fault Refusal :=
  s.finish .jf (jumpResult (fun x => x = 0) a target s)

end Sys2Proof.Machine
end

