-- ==== Sys2Proof/Machine/Io.lean ====
section
/-! DEFINITION. IN and OUT (41_io R100 to R103). -/

namespace Sys2Proof.Machine

/-- The effects of an IN whose queue holds `v` and then `rest` (41_io R102). -/
def inpResult (dst : Operand) (v : Cell) (rest : List Cell) (s : State) : Except Trap State :=
  match s.dstAddr s.ext 1 dst with
  | .error t => .error t
  | .ok (d, e1) =>
    match s.memWrite e1 1 d v with
    | .error t => .error t
    | .ok (m, e2) => .ok (((s.setInq rest).setMem m).commit e2 (s.pc + 2))

/-- IN (41_io R102). On an empty queue it suspends before its operand is looked at (30_encoding R74 step 6): nothing is
written, the pc still addresses it, and the status stays as it is (60_exceptions R137). -/
def execInp (dst : Operand) (s : State) : Host.Outcome State Fault Refusal :=
  match s.inq with
  | [] => .next s
  | v :: rest => s.finish .inp (inpResult dst v rest s)

/-- OUT (41_io R103): append the operand's value at the tail, advance by 2. -/
def execOut (a : Operand) (s : State) : Host.Outcome State Fault Refusal :=
  s.finish .out
    (match s.readOperand s.ext 1 a with
    | .error t => .error t
    | .ok (x, e1) => .ok ((s.setOutq (s.outq ++ [x])).commit e1 (s.pc + 2)))

end Sys2Proof.Machine
end

