-- ==== Sys2Proof/Machine/Fetch.lean ====
section
/-! DEFINITION. Steps 1 to 5 of `Step()`: the pc's range, the implicit halt, the fetch and the decode (30_encoding R74). -/

namespace Sys2Proof.Machine

/-- What the fetch of a step ends with: an instruction to run, or a stop with the state it leaves. -/
inductive Fetched where
  | run (i : Instr)
  | stop (s : State)
deriving DecidableEq, Repr

/-- The decoder at address `a` (30_encoding R72): the word and the three cells after it. A literal's address is checked
when its operand is resolved, not here (20_memory R43). -/
def State.decodeAt (s : State) (a : Nat) : Except DecodeReject Instr :=
  decode s.cfg.extraDigits (s.mem.read a) (s.mem.read (a + 1)) (s.mem.read (a + 2)) (s.mem.read (a + 3))

/-- The fault record of a word that is no instruction (30_encoding R74 steps 4 and 5; 60_exceptions R131). -/
def State.rejectRecord (s : State) (r : DecodeReject) : FaultRecord :=
  let w := some (s.mem.read s.pc.toNat)
  match r with
  | .negativeWord => { code := .unsupportedOpcode, pc := s.pc, word := w, opcode := none, operand := none }
  | .unsupportedOpcode n => { code := .unsupportedOpcode, pc := s.pc, word := w, opcode := some n, operand := none }
  | .extraDigits op =>
    { code := .invalidMode, pc := s.pc, word := w, opcode := some op.number, operand := some (op.count + 1) }

/-- The fault record of a negative pc, which has no word (30_encoding R74 step 1). -/
def State.underflowRecord (s : State) : FaultRecord :=
  { code := .addressUnderflow, pc := s.pc, word := none, opcode := none, operand := none }

/-- Steps 1 to 5 of `Step()` (30_encoding R74). -/
def State.fetch (s : State) : Fetched :=
  if s.pc < 0 then .stop (s.takeFault s.underflowRecord)
  else if (s.ext : Int) ≤ s.pc then .stop s.halt
  else
    match s.decodeAt s.pc.toNat with
    | .error r => .stop (s.takeFault (s.rejectRecord r))
    | .ok i => .run i

/-- The address a program's next instruction is loaded at: the pc, or 0 where the pc is negative. -/
def State.loadSlot (s : State) : Nat := s.pc.toNat

/-- The cells `vs` loaded where the next fetch reads them, with all that this fetch takes: a non-negative pc, an extent
that covers them and the status Ready (log 4). -/
def State.loadAtPc (s : State) (vs : List Cell) : State :=
  { s with
    mem := s.mem.writeList s.loadSlot vs
    ext := max s.ext (s.loadSlot + vs.length)
    pc := s.loadSlot
    status := .ready }

end Sys2Proof.Machine
end

