-- ==== Sys2Proof/Machine/Step.lean ====
section
/-! DEFINITION. One step of the execution engine (30_encoding R73, R74), and a word placed where it fetches. -/

namespace Sys2Proof.Machine

/-- `Step()` (30_encoding R74) in the status Ready. In the other statuses the spec defines no step: a halted machine
rests as it is, and a faulted one answers its record (60_exceptions R133, R140; log 3). -/
def step (s : State) : Host.Outcome State Fault Refusal :=
  match s.status with
  | .faulted f => .fault (.faulted f)
  | .halted => .next s
  | .ready =>
    match s.fetch with
    | .stop t => .next t
    | .run i => exec i s

/-- `s` with the instruction whose bits are `w` stored where `step` fetches its next instruction: four cells, the length
of the longest instruction, so that the cells the table gives no bits are 0. -/
def State.withFetchWord (s : State) (nbits w : Nat) : State :=
  s.loadAtPc [tableCell nbits w 0, tableCell nbits w 1, tableCell nbits w 2, tableCell nbits w 3]

end Sys2Proof.Machine
end

