-- ==== Sys2Proof/Machine/Transactions.lean ====
section
/-! DEFINITION. What the host can do to one instance: construct, push input, resume, query, peek, poke (60_exceptions
R139 to R145; 70_reset R170 to R172). -/

namespace Sys2Proof.Machine

/-- The extent at construction of a program of `n` cells (10_state R33). -/
def Config.initialExtent (c : Config) (n : Nat) : Nat :=
  match c.memPolicy, c.cap with
  | .grow, _ => n
  | .fixed, none => n
  | .fixed, some cap => max n cap

/-- `new(program, initial_input)` (70_reset R170): every field at its reset value (10_state R33). Refused when an element
is outside INT64, or when CAP is not finite under Fixed (70_reset R172). -/
def construct (c : Config) (program : List Int) (input : List Cell) : Option State :=
  if c.acceptable ∧ ∀ v ∈ program, fits64 v then
    some
      { cfg := c
        mem := Memory.writeList [] 0 (program.map Cell.ofInt)
        ext := Config.initialExtent c program.length
        pc := 0
        rb := 0
        status := .ready
        inq := input
        outq := [] }
  else none

/-- White space around a program text (70_reset R171; log 6). -/
def isBlank (c : Char) : Bool := c = ' ' || c = '\n' || c = '\r' || c = '\t'

/-- A text without the white space around it (70_reset R171). -/
def trimText (t : List Char) : List Char := ((t.dropWhile isBlank).reverse.dropWhile isBlank).reverse

/-- The pieces of a text between its commas (70_reset R171). -/
def splitCommas : List Char → List (List Char)
  | [] => [[]]
  | c :: t =>
    match splitCommas t with
    | [] => [[c]]
    | p :: ps => if c = ',' then [] :: p :: ps else (c :: p) :: ps

/-- The value of decimal digits, most significant first, after those that make `acc`; refused on any other character. -/
def digitsValue : Nat → List Char → Option Nat
  | acc, [] => some acc
  | acc, c :: t => if '0' ≤ c ∧ c ≤ '9' then digitsValue (10 * acc + (c.toNat - '0'.toNat)) t else none

/-- A base-10 integer: an optional minus sign and at least one digit (70_reset R171, R172; log 6). -/
def integerValue : List Char → Option Int
  | [] => none
  | '-' :: t => if t = [] then none else (digitsValue 0 t).map (fun n : Nat => -(n : Int))
  | c :: t => (digitsValue 0 (c :: t)).map (fun n : Nat => (n : Int))

/-- The program of a load text (70_reset R171): trimmed, split at commas, each piece a base-10 integer. Refused when a
piece is none (R172). A blank text is the empty program (log 6). -/
def parseProgram (text : List Char) : Option (List Int) :=
  match trimText text with
  | [] => some []
  | t => (splitCommas t).mapM integerValue

/-- Construction from a load text (70_reset R170 to R172). -/
def constructFromText (c : Config) (text : List Char) (input : List Cell) : Option State :=
  match parseProgram text with
  | none => none
  | some program => construct c program input

/-- `push_input(v)` (60_exceptions R141). -/
def State.pushInput (s : State) (v : Cell) : State := s.setInq (s.inq ++ [v])

/-- `is_halted()` (60_exceptions R142). -/
def State.isHalted (s : State) : Bool := s.status = .halted

/-- `peek_memory(a)` (60_exceptions R143): the cell, or `none`, a refusal. It changes nothing. -/
def State.peek (s : State) (a : Int) : Option Cell :=
  if 0 ≤ a ∧ a < s.addrLimit then some (s.mem.read a.toNat) else none

/-- `poke_memory(a, v)` (60_exceptions R144): the state after it, or `none`, a refusal with no effect. -/
def State.poke (s : State) (a : Int) (v : Cell) : Option State :=
  if 0 ≤ a ∧ a < s.addrLimit then
    some ((s.setMem (s.mem.write a.toNat v)).setExt
      (match s.cfg.memPolicy with
      | .grow => max s.ext (a.toNat + 1)
      | .fixed => s.ext))
  else none

/-- How a resume ends (60_exceptions R139). -/
inductive StopReason where
  | halted
  | suspended
  | faulted (f : FaultRecord)
deriving DecidableEq, Repr

/-- The suspension point (30_encoding R74 step 6): the machine is ready, and what it fetches is an IN whose queue is
empty. -/
def State.suspends (s : State) : Bool :=
  match s.status, s.fetch, s.inq with
  | .ready, .run (.inp _), [] => true
  | _, _, _ => false

/-- The stop reason of a step from `s` to `t`, if it ended with a stop (30_encoding R73). -/
def stopReason (s t : State) : Option StopReason :=
  match t.status with
  | .halted => some .halted
  | .faulted f => some (.faulted f)
  | .ready => if s.suspends then some .suspended else none

/-- What a resume under fuel answers: the outputs, the stop reason and the state it leaves; or the state reached when the
fuel is spent, which is no stop (60_exceptions R140, R151). -/
inductive ResumeResult where
  | returned (out : List Cell) (reason : StopReason) (s : State)
  | outOfFuel (s : State)
  /-- A step that is refused. No step of this machine is. -/
  | refused (r : Refusal)
deriving DecidableEq, Repr

/-- The loop of `Resume` (60_exceptions R140): step until a stop, then hand over and empty the output queue. -/
def resumeLoop : Nat → State → ResumeResult
  | 0, s => .outOfFuel s
  | fuel + 1, s =>
    match step s with
    | .next t =>
      match stopReason s t with
      | some r => .returned t.outq r (t.setOutq [])
      | none => resumeLoop fuel t
    | .fault (.faulted f) => .returned s.outq (.faulted f) (s.setOutq [])
    | .refused r => .refused r

/-- `Resume(xs)` under fuel (60_exceptions R140): a no-op that discards `xs` on a halted or faulted machine. -/
def State.resume (s : State) (fuel : Nat) (xs : List Cell) : ResumeResult :=
  match s.status with
  | .halted => .returned [] .halted s
  | .faulted f => .returned [] (.faulted f) s
  | .ready => resumeLoop fuel (s.setInq (s.inq ++ xs))

/-- The transactions on an existing instance (60_exceptions R145). -/
inductive Transaction where
  | pushInput (v : Cell)
  | resume (xs : List Cell)
  | isHalted
  | status
  | peek (a : Int)
  | poke (a : Int) (v : Cell)
deriving DecidableEq, Repr

/-- What the block returns to the host (60_exceptions R145). -/
inductive Reply where
  | nothing
  | stopped (out : List Cell) (reason : StopReason)
  | flag (b : Bool)
  | status (st : Status)
  | cell (v : Cell)
  | refused
  | outOfFuel
deriving DecidableEq, Repr

/-- One transaction, a resume under fuel: the reply and the state after it (60_exceptions R145). -/
def State.transact (s : State) (fuel : Nat) : Transaction → Reply × State
  | .pushInput v => (.nothing, s.pushInput v)
  | .resume xs =>
    match s.resume fuel xs with
    | .returned out r t => (.stopped out r, t)
    | .outOfFuel t => (.outOfFuel, t)
    | .refused _ => (.refused, s)
  | .isHalted => (.flag s.isHalted, s)
  | .status => (.status s.status, s)
  | .peek a =>
    match s.peek a with
    | some v => (.cell v, s)
    | none => (.refused, s)
  | .poke a v =>
    match s.poke a v with
    | some t => (.nothing, t)
    | none => (.refused, s)

end Sys2Proof.Machine
end

