-- ==== Sys2Proof/Safety.lean ====
section
/-! DEFINITION. The terms the claims are stated in: the invariant of a state, and what the spec says of an operand,
written without the model's own operand operations. -/

namespace Sys2Proof.Machine

/-- What holds of every state of an instance that the machine and the host can bring about. -/
structure State.Inv (s : State) : Prop where
  /-- Memory is in its canonical form. -/
  memForm : s.mem.wf = true
  /-- Every cell that is not 0 is present: its address is below the extent (10_state R24). -/
  memPresent : ∀ e ∈ s.mem, e.1 < s.ext
  /-- The pc stays in its range (10_state R25). -/
  pcLow : -2 ^ 63 ≤ s.pc
  pcHigh : s.pc ≤ 2 ^ 63
  /-- A preallocated buffer has no address of 2^63 or more (20_memory R43; log 7). -/
  fixedExt : s.cfg.memPolicy = .fixed → s.ext ≤ 2 ^ 63
  /-- A fault record holds the pc the machine stopped at (60_exceptions R132). -/
  faultPc : ∀ f, s.status = .faulted f → f.pc = s.pc
  /-- A fault record has no word exactly when the pc was negative (60_exceptions R131). -/
  faultWord : ∀ f, s.status = .faulted f → (f.word = none ↔ s.pc < 0)

/-- How an instruction uses an operand (30_encoding R67). -/
inductive Access where
  | read
  | write
deriving DecidableEq, Repr

/-- The effective address of an operand, an exact integer; none in immediate mode (20_memory R50 to R52). -/
def State.effectiveAddress (s : State) (o : Operand) : Option Int :=
  match o.mode with
  | .position => some o.lit.toInt
  | .relative => some (o.lit.toInt + s.rb.toInt)
  | .immediate => none
  | .illegal _ => none

/-- The value of a read operand in the state before the instruction (20_memory R50). -/
def State.operandValue (s : State) (o : Operand) : Cell :=
  match s.effectiveAddress o with
  | some a => s.mem.read a.toNat
  | none => o.lit

/-- Operand `p` resolves without a fault: its mode is legal for the access, its literal's address is below the limit, and
so is its effective address, which is not negative (20_memory R43, R50, R51). -/
def State.Resolves (s : State) (acc : Access) (p : Nat) (o : Operand) : Prop :=
  o.mode.legal = true ∧ s.pc + p < s.addrLimit ∧ (acc = .write → o.mode ≠ .immediate) ∧
    ∀ a, s.effectiveAddress o = some a → 0 ≤ a ∧ a < s.addrLimit

/-- The extent after an instruction that touches the effective addresses of `os`: under Grow it covers each of them, under
Fixed it stays (20_memory R44, R45). -/
def State.extentAfter (s : State) (os : List Operand) : Nat :=
  match s.cfg.memPolicy with
  | .grow => (os.filterMap s.effectiveAddress).foldl (fun e a => max e (a.toNat + 1)) s.ext
  | .fixed => s.ext

/-- The faults of operand `p` in their order of priority, each with its condition (60_exceptions R135, item 6). -/
def State.operandEvents (s : State) (acc : Access) (p : Nat) (o : Operand) : List (Bool × Trap) :=
  [ (!o.mode.legal, ⟨.invalidMode, some p⟩),
    (decide ((s.addrLimit : Int) ≤ s.pc + p), ⟨.outOfCapacity, some p⟩),
    (acc == .write && o.mode == .immediate, ⟨.invalidDestination, some p⟩),
    ((s.effectiveAddress o).any (fun (a : Int) => decide (a < 0)), ⟨.addressUnderflow, some p⟩),
    ((s.effectiveAddress o).any (fun (a : Int) => decide ((s.addrLimit : Int) ≤ a)), ⟨.outOfCapacity, some p⟩) ]

/-- The overflow event of an exact result (60_exceptions R135, item 7). -/
def overflowEvent (r : Int) : Bool × Trap := (!decide (fits64 r), ⟨.arithmeticOverflow, none⟩)

/-- The fault events of an instruction in their order of priority (60_exceptions R135, items 6 and 7). -/
def State.events (s : State) : Instr → List (Bool × Trap)
  | .add a b d => s.operandEvents .read 1 a ++ s.operandEvents .read 2 b ++ s.operandEvents .write 3 d ++
      [overflowEvent ((s.operandValue a).toInt + (s.operandValue b).toInt)]
  | .mul a b d => s.operandEvents .read 1 a ++ s.operandEvents .read 2 b ++ s.operandEvents .write 3 d ++
      [overflowEvent ((s.operandValue a).toInt * (s.operandValue b).toInt)]
  | .inp d => s.operandEvents .write 1 d
  | .out a => s.operandEvents .read 1 a
  | .jt a t => s.operandEvents .read 1 a ++ s.operandEvents .read 2 t
  | .jf a t => s.operandEvents .read 1 a ++ s.operandEvents .read 2 t
  | .lt a b d => s.operandEvents .read 1 a ++ s.operandEvents .read 2 b ++ s.operandEvents .write 3 d
  | .eq a b d => s.operandEvents .read 1 a ++ s.operandEvents .read 2 b ++ s.operandEvents .write 3 d
  | .arb a => s.operandEvents .read 1 a ++ [overflowEvent (s.rb.toInt + (s.operandValue a).toInt)]
  | .hlt => []

/-- The first event whose condition holds: "the first that applies, in this order" (60_exceptions R135). -/
def firstEvent (l : List (Bool × Trap)) : Option Trap := (l.find? (fun e => e.1)).map (fun e => e.2)

/-- An instruction that suspends here instead of running: an IN whose queue is empty (60_exceptions R135, item 5). -/
def State.mustWait (s : State) (i : Instr) : Bool := i.op == .inp && s.inq.isEmpty

/-- The machine is ready and its pc stands on a present cell, so that a step fetches a word (30_encoding R74). -/
def State.Fetches (s : State) : Prop := s.status = .ready ∧ 0 ≤ s.pc ∧ s.pc < s.ext

/-- An integer written in base 10 (70_reset R171): its digits, after a minus sign if it is negative. -/
def decimalText (v : Int) : List Char :=
  if v < 0 then '-' :: Nat.toDigits 10 v.natAbs else Nat.toDigits 10 v.natAbs

/-- A program as a comma-separated sequence of base-10 integers (70_reset R171). -/
def programText : List Int → List Char
  | [] => []
  | [v] => decimalText v
  | v :: vs => decimalText v ++ ',' :: programText vs

/-- The text `piece` is the base-10 integer `v` (70_reset R171, R172): one or more digits, most significant first, after a
minus sign if there is one. That there is no plus sign is the model's choice (log 6). -/
def IsDecimal (piece : List Char) (v : Int) : Prop :=
  ∃ ds : List Nat, ds ≠ [] ∧ (∀ d ∈ ds, d < 10) ∧
    ((piece = ds.map Nat.digitChar ∧ v = (ds.foldl (fun n d => 10 * n + d) 0 : Nat)) ∨
      (piece = '-' :: ds.map Nat.digitChar ∧ v = -((ds.foldl (fun n d => 10 * n + d) 0 : Nat) : Int)))

/-- The text is the program (70_reset R171): pieces with one comma between each and the next, the pieces the program's
integers in order, and white space around the whole. Which characters are white space, and that no piece at all is the
empty program, are the model's choice (log 6). -/
def IsLoadText (text : List Char) (program : List Int) : Prop :=
  ∃ (before after : List Char) (pieces : List (List Char)), (∀ ch ∈ before ++ after, ch ∈ [' ', '\n', '\r', '\t']) ∧
    text = before ++ [','].intercalate pieces ++ after ∧ List.Forall₂ IsDecimal pieces program

/-- What a step from `s` appends to the output queue (41_io R103): the value of an OUT that it fetches and whose operand
resolves, and nothing otherwise. -/
def State.outputOf (s : State) : List Cell :=
  if s.status = .ready ∧ 0 ≤ s.pc ∧ s.pc < s.ext then
    match s.decodeAt s.pc.toNat with
    | .ok (.out a) => if firstEvent (s.operandEvents .read 1 a) = none then [s.operandValue a] else []
    | _ => []
  else []

/-- The states that the first `n` steps from `s` start from, `s` itself the first. -/
def stepsFrom : Nat → State → List State
  | 0, _ => []
  | n + 1, s =>
    s :: (match step s with
      | .next t => stepsFrom n t
      | _ => [])

/-- The stop reason `r` is that of a step from `u` to `v` (60_exceptions R139). -/
def StopsWith (u v : State) (r : StopReason) : Prop :=
  match r with
  | .halted => v.status = .halted
  | .faulted f => v.status = .faulted f
  | .suspended => v = u ∧ u.Fetches ∧ u.inq = [] ∧ ∃ d, u.decodeAt u.pc.toNat = .ok (.inp d)

end Sys2Proof.Machine
end

