-- ==== Sys2Proof/Certificates/Slice0/Obligations.lean ====
section
/-! DEFINITION. The statements about the model, each with the rules of the spec it rests on. -/

open Sys2Proof Sys2Proof.Machine

/-! ### Encoding -/

/-- 40_alu R91 to R94, 41_io R102 and R103, 42_control R110 and R111, 43_base_halt R120 and R121: the words the spec writes out as
examples decode to the instructions it names, one for each opcode. -/
def Obligations.SpecExampleWordsDecode : Prop :=
  decode .fault 1101 100 (-1) 4 = .ok (.add ⟨.immediate, 100⟩ ⟨.immediate, -1⟩ ⟨.position, 4⟩) ∧
  decode .fault 1102 (-7) 6 5 = .ok (.mul ⟨.immediate, -7⟩ ⟨.immediate, 6⟩ ⟨.position, 5⟩) ∧
  decode .fault 3 3 0 0 = .ok (.inp ⟨.position, 3⟩) ∧
  decode .fault 204 2 0 0 = .ok (.out ⟨.relative, 2⟩) ∧
  decode .fault 1105 1 7 0 = .ok (.jt ⟨.immediate, 1⟩ ⟨.immediate, 7⟩) ∧
  decode .fault 1006 101 0 0 = .ok (.jf ⟨.position, 101⟩ ⟨.immediate, 0⟩) ∧
  decode .fault 21207 0 10 1 = .ok (.lt ⟨.relative, 0⟩ ⟨.immediate, 10⟩ ⟨.relative, 1⟩) ∧
  decode .fault 8 9 10 9 = .ok (.eq ⟨.position, 9⟩ ⟨.position, 10⟩ ⟨.position, 9⟩) ∧
  decode .fault 109 1 0 0 = .ok (.arb ⟨.immediate, 1⟩) ∧
  decode .fault 99 0 0 0 = .ok .hlt

/-- 30_encoding R60, R62, R65, R71: the cells of an instruction, whatever follows them, decode to that instruction with every
operand, under both settings of `EXTRA_MODE_DIGITS`, and the rest of the list is left over. -/
def Obligations.DecodeOfEncodeReturnsInstruction : Prop :=
  ∀ (x : ExtraDigits) (i : Instr) (rest : List Cell), decodeCells x (encode i ++ rest) = .ok (i, rest)

/-- 30_encoding R64, R68, R71: under `Fault`, cells that decode are the encoding of what they decode to. -/
def Obligations.EncodeOfDecodeReturnsCells : Prop :=
  ∀ (cells rest : List Cell) (i : Instr), decodeCells .fault cells = .ok (i, rest) → encode i ++ rest = cells

/-- 30_encoding R62: the mode of operand `p` is the digit `(w div 10^(p+1)) mod 10` (here `p = q + 1`), under both settings;
and its literal is the `p`-th cell after the word (R60). -/
def Obligations.OperandModesAreWordDigits : Prop :=
  ∀ (x : ExtraDigits) (w l1 l2 l3 : Cell) (i : Instr), decode x w l1 l2 l3 = .ok i →
    ∀ (q : Nat) (o : Operand), i.operands[q]? = some o →
      (o.mode.digit : Int) = w.toInt / 10 ^ (q + 2) % 10 ∧ [l1, l2, l3][q]? = some o.lit

/-- 30_encoding R70: under `Ignore`, the words that decode alike are exactly the non-negative ones that differ by a multiple of
`10^(n+2)`; there is no other aliasing. -/
def Obligations.WordsThatDecodeAlike : Prop :=
  ∀ (w w' l1 l2 l3 : Cell) (i : Instr), decode .ignore w l1 l2 l3 = .ok i →
    (decode .ignore w' l1 l2 l3 = .ok i ↔
      0 ≤ w'.toInt ∧ w'.toInt % 10 ^ (i.op.count + 2) = w.toInt % 10 ^ (i.op.count + 2))

/-- The legal words of 30_encoding R68, with the operand count of the opcode. -/
def IsLegalWord (w : Int) (n : Nat) : Prop :=
  ∃ op m1 m2 m3 : Int, w = op + 100 * m1 + 1000 * m2 + 10000 * m3 ∧
    ((n = 3 ∧ op ∈ [1, 2, 7, 8] ∧ m1 ∈ [0, 1, 2] ∧ m2 ∈ [0, 1, 2] ∧ m3 ∈ [0, 2]) ∨
     (n = 1 ∧ op = 3 ∧ m1 ∈ [0, 2] ∧ m2 = 0 ∧ m3 = 0) ∨
     (n = 1 ∧ op ∈ [4, 9] ∧ m1 ∈ [0, 1, 2] ∧ m2 = 0 ∧ m3 = 0) ∨
     (n = 2 ∧ op ∈ [5, 6] ∧ m1 ∈ [0, 1, 2] ∧ m2 ∈ [0, 1, 2] ∧ m3 = 0) ∨
     (n = 0 ∧ op = 99 ∧ m1 = 0 ∧ m2 = 0 ∧ m3 = 0))

/-- 30_encoding R68: the words of well-formed instructions are exactly the legal words under `Fault`, and the legal words plus a
multiple of `10^(n+2)` under `Ignore`. -/
def Obligations.LegalWordsAreTheListedOnes : Prop :=
  ∀ (w l1 l2 l3 : Cell),
    ((∃ i, decode .fault w l1 l2 l3 = .ok i ∧ i.wellFormed = true) ↔ ∃ n, IsLegalWord w.toInt n) ∧
    ((∃ i, decode .ignore w l1 l2 l3 = .ok i ∧ i.wellFormed = true) ↔
      ∃ (n k : Nat) (v : Int), IsLegalWord v n ∧ w.toInt = v + k * 10 ^ (n + 2))

/-! ### Fetch and decode in the machine -/

/-- 30_encoding R74, R77: when the cells at the pc decode to `i`, the step is `exec i`, with nothing added around it. -/
def Obligations.StepRunsTheDecodedInstruction : Prop :=
  ∀ (s : State) (i : Instr), s.Fetches → s.decodeAt s.pc.toNat = .ok i → step s = exec i s

/-- 30_encoding R74 step 1, 60_exceptions R131, R132: a negative pc faults at the fetch, with no word in the record. -/
def Obligations.NegativePcFaultsAtFetch : Prop :=
  ∀ s : State, s.status = .ready → s.pc < 0 →
    step s = .next { s with status := .faulted ⟨.addressUnderflow, s.pc, none, none, none⟩ }

/-- 43_base_halt R122: the implicit halt has the effect of HLT, the stop reason HALTED and the pc unchanged, and the host reads
the machine as halted. -/
def Obligations.ImplicitHaltActsAsHlt : Prop :=
  ∀ s : State, s.status = .ready → 0 ≤ s.pc → (s.ext : Int) ≤ s.pc →
    step s = exec .hlt s ∧ step s = .next { s with status := .halted } ∧
      ∀ fuel, s.resume (fuel + 1) [] = .returned s.outq .halted { s with status := .halted, outq := [] } ∧
        State.isHalted { s with status := .halted, outq := [] } = true

/-- 30_encoding R61: the opcode of a word that is not negative is `w mod 100`; a negative word has none and faults. With R69 and
R74 step 4: an opcode outside the map faults, with that opcode in the record. -/
def Obligations.UnsupportedWordsFault : Prop :=
  ∀ (s : State) (w : Cell), s.Fetches → s.mem.read s.pc.toNat = w →
    (w.toInt < 0 → step s = .next { s with status := .faulted ⟨.unsupportedOpcode, s.pc, some w, none, none⟩ }) ∧
    (0 ≤ w.toInt → w.toInt % 100 ∉ [1, 2, 3, 4, 5, 6, 7, 8, 9, 99] →
      step s = .next { s with status := .faulted ⟨.unsupportedOpcode, s.pc, some w, some (w.toInt % 100).toNat, none⟩ }) ∧
    (∀ i, s.decodeAt s.pc.toNat = .ok i → 0 ≤ w.toInt ∧ (i.op.number : Int) = w.toInt % 100)

/-- 30_encoding R64, R74 step 5: under `Fault`, a nonzero digit above the operands raises INVALID_MODE with operand `n + 1`, before
any operand is looked at and before an IN can suspend; under `Ignore` it changes nothing. -/
def Obligations.ExtraDigitsFollowTheParameter : Prop :=
  ∀ (s : State) (w : Cell) (op : Opcode), s.Fetches → s.mem.read s.pc.toNat = w → 0 ≤ w.toInt →
    w.toInt % 100 = op.number → w.toInt / 10 ^ (op.count + 2) ≠ 0 →
    (s.cfg.extraDigits = .fault →
      step s = .next { s with
        status := .faulted ⟨.invalidMode, s.pc, some w, some op.number, some (op.count + 1)⟩ }) ∧
    (s.cfg.extraDigits = .ignore → ∃ i, i.op = op ∧ step s = exec i s ∧
      ∀ l1 l2 l3, decode .ignore w l1 l2 l3 = decode .ignore (Cell.ofInt (w.toInt % 10 ^ (op.count + 2))) l1 l2 l3)

/-- 42_control R112: the target of a taken jump is written to the pc unchecked; the next fetch raises ADDRESS_UNDERFLOW on a
negative one, halts at or beyond the extent, and takes the cell there as a word otherwise: it runs what that decodes to, or faults on it. -/
def Obligations.JumpTargetIsCheckedAtTheNextFetch : Prop :=
  ∀ (s : State) (a target : Operand) (i : Instr), s.status = .ready → s.Resolves .read 1 a → s.Resolves .read 2 target →
    ((i = .jt a target ∧ s.operandValue a ≠ 0) ∨ (i = .jf a target ∧ s.operandValue a = 0)) →
    ∃ t, exec i s = .next t ∧ t.pc = (s.operandValue target).toInt ∧
      (t.pc < 0 → step t = .next { t with status := .faulted ⟨.addressUnderflow, t.pc, none, none, none⟩ }) ∧
      ((t.ext : Int) ≤ t.pc → step t = .next { t with status := .halted }) ∧
      (0 ≤ t.pc → t.pc < t.ext → ∀ j, t.decodeAt t.pc.toNat = .ok j → step t = exec j t) ∧
      (0 ≤ t.pc → t.pc < t.ext → ∀ r, t.decodeAt t.pc.toNat = .error r →
        ∃ f, f.pc = t.pc ∧ f.word = some (t.mem.read t.pc.toNat) ∧ step t = .next { t with status := .faulted f })

/-! ### What each instruction does -/

/-- 40_alu R91: ADD stores the exact sum and advances the pc by 4; nothing else changes but the extent (20_memory R44). -/
def Obligations.AddStoresTheExactSum : Prop :=
  ∀ (s : State) (a b d : Operand) (addr : Int) (r : Cell),
    s.Resolves .read 1 a → s.Resolves .read 2 b → s.Resolves .write 3 d → s.effectiveAddress d = some addr →
    r.toInt = (s.operandValue a).toInt + (s.operandValue b).toInt →
    exec (.add a b d) s =
      .next { s with mem := s.mem.write addr.toNat r, ext := s.extentAfter [a, b, d], pc := s.pc + 4 }

/-- 40_alu R92: MUL stores the exact product and advances the pc by 4. -/
def Obligations.MulStoresTheExactProduct : Prop :=
  ∀ (s : State) (a b d : Operand) (addr : Int) (r : Cell),
    s.Resolves .read 1 a → s.Resolves .read 2 b → s.Resolves .write 3 d → s.effectiveAddress d = some addr →
    r.toInt = (s.operandValue a).toInt * (s.operandValue b).toInt →
    exec (.mul a b d) s =
      .next { s with mem := s.mem.write addr.toNat r, ext := s.extentAfter [a, b, d], pc := s.pc + 4 }

/-- 40_alu R93: LT stores 1 when the first value is less than the second, both signed, and 0 otherwise; it never overflows. -/
def Obligations.LtStoresTheSignedComparison : Prop :=
  ∀ (s : State) (a b d : Operand) (addr : Int),
    s.Resolves .read 1 a → s.Resolves .read 2 b → s.Resolves .write 3 d → s.effectiveAddress d = some addr →
    exec (.lt a b d) s = .next { s with
      mem := s.mem.write addr.toNat (if (s.operandValue a).toInt < (s.operandValue b).toInt then 1 else 0)
      ext := s.extentAfter [a, b, d]
      pc := s.pc + 4 }

/-- 40_alu R94: EQ stores 1 when the two values are equal and 0 otherwise; it never overflows. -/
def Obligations.EqStoresTheEqualityTest : Prop :=
  ∀ (s : State) (a b d : Operand) (addr : Int),
    s.Resolves .read 1 a → s.Resolves .read 2 b → s.Resolves .write 3 d → s.effectiveAddress d = some addr →
    exec (.eq a b d) s = .next { s with
      mem := s.mem.write addr.toNat (if s.operandValue a = s.operandValue b then 1 else 0)
      ext := s.extentAfter [a, b, d]
      pc := s.pc + 4 }

/-- 41_io R102: IN stores the oldest queued value, removes it from the queue and advances the pc by 2. -/
def Obligations.InStoresTheOldestInput : Prop :=
  ∀ (s : State) (d : Operand) (addr : Int) (v : Cell) (rest : List Cell),
    s.inq = v :: rest → s.Resolves .write 1 d → s.effectiveAddress d = some addr →
    exec (.inp d) s = .next { s with
      mem := s.mem.write addr.toNat v, inq := rest, ext := s.extentAfter [d], pc := s.pc + 2 }

/-- 41_io R102, 60_exceptions R137, R138: on an empty queue IN changes nothing, whatever its destination, and a resume stops with
SUSPENDED at once. -/
def Obligations.InSuspendsOnAnEmptyQueue : Prop :=
  ∀ (s : State) (d : Operand), s.inq = [] →
    exec (.inp d) s = .next s ∧
    (s.Fetches → s.decodeAt s.pc.toNat = .ok (.inp d) →
      step s = .next s ∧ ∀ fuel, s.resume (fuel + 1) [] = .returned s.outq .suspended { s with outq := [] })

/-- 41_io R103: OUT appends the value at the tail of the output queue and advances the pc by 2. -/
def Obligations.OutAppendsTheValue : Prop :=
  ∀ (s : State) (a : Operand), s.Resolves .read 1 a →
    exec (.out a) s = .next { s with
      outq := s.outq ++ [s.operandValue a], ext := s.extentAfter [a], pc := s.pc + 2 }

/-- 42_control R110: JT sets the pc to the target when the value is not 0, and to `pc + 3` otherwise. -/
def Obligations.JtJumpsWhenNotZero : Prop :=
  ∀ (s : State) (a target : Operand), s.Resolves .read 1 a → s.Resolves .read 2 target →
    exec (.jt a target) s = .next { s with
      ext := s.extentAfter [a, target]
      pc := if s.operandValue a = 0 then s.pc + 3 else (s.operandValue target).toInt }

/-- 42_control R111: JF sets the pc to the target when the value is 0, and to `pc + 3` otherwise. -/
def Obligations.JfJumpsWhenZero : Prop :=
  ∀ (s : State) (a target : Operand), s.Resolves .read 1 a → s.Resolves .read 2 target →
    exec (.jf a target) s = .next { s with
      ext := s.extentAfter [a, target]
      pc := if s.operandValue a = 0 then (s.operandValue target).toInt else s.pc + 3 }

/-- 43_base_halt R120: ARB adds the value, read relative to the old base, to the relative base, exactly, and advances the pc by 2. -/
def Obligations.ArbAddsToTheRelativeBase : Prop :=
  ∀ (s : State) (a : Operand) (r : Cell), s.Resolves .read 1 a → r.toInt = s.rb.toInt + (s.operandValue a).toInt →
    exec (.arb a) s = .next { s with rb := r, ext := s.extentAfter [a], pc := s.pc + 2 }

/-- 43_base_halt R121: HLT halts, with the pc and everything else unchanged; a resume stops with HALTED and the queued input stays;
every later resume is a no-op that returns no output. -/
def Obligations.HltHaltsForGood : Prop :=
  ∀ s : State, exec .hlt s = .next { s with status := .halted } ∧
    (s.Fetches → s.decodeAt s.pc.toNat = .ok .hlt → ∀ fuel,
      s.resume (fuel + 1) [] = .returned s.outq .halted { s with status := .halted, outq := [] }) ∧
    ∀ fuel xs, State.resume { s with status := .halted } fuel xs = .returned [] .halted { s with status := .halted }

/-! ### Faults -/

/-- 40_alu R90, 43_base_halt R120: a sum, a product or a new relative base outside INT64 raises ARITHMETIC_OVERFLOW, with no operand
in the record, and writes nothing. The record's word is the cell at the pc (log 5). -/
def Obligations.OverflowFaultsAndWritesNothing : Prop :=
  (∀ (s : State) (a b d : Operand), s.Resolves .read 1 a → s.Resolves .read 2 b → s.Resolves .write 3 d →
    ¬ fits64 ((s.operandValue a).toInt + (s.operandValue b).toInt) →
    exec (.add a b d) s = .next { s with
      status := .faulted ⟨.arithmeticOverflow, s.pc, some (s.mem.read s.pc.toNat), some 1, none⟩ }) ∧
  (∀ (s : State) (a b d : Operand), s.Resolves .read 1 a → s.Resolves .read 2 b → s.Resolves .write 3 d →
    ¬ fits64 ((s.operandValue a).toInt * (s.operandValue b).toInt) →
    exec (.mul a b d) s = .next { s with
      status := .faulted ⟨.arithmeticOverflow, s.pc, some (s.mem.read s.pc.toNat), some 2, none⟩ }) ∧
  (∀ (s : State) (a : Operand), s.Resolves .read 1 a → ¬ fits64 (s.rb.toInt + (s.operandValue a).toInt) →
    exec (.arb a) s = .next { s with
      status := .faulted ⟨.arithmeticOverflow, s.pc, some (s.mem.read s.pc.toNat), some 9, none⟩ })

/-- 60_exceptions R132, R135 (items 6 and 7), R131, 30_encoding R76: an instruction takes the first fault event in the spec's order,
with its record, and commits nothing else. The record's word is the cell at the pc (log 5). -/
def Obligations.FirstEventIsTheFaultTaken : Prop :=
  ∀ (s : State) (i : Instr) (t : Trap), s.mustWait i = false → firstEvent (s.events i) = some t →
    exec i s = .next { s with
      status := .faulted ⟨t.code, s.pc, some (s.mem.read s.pc.toNat), some i.op.number, t.operand⟩ }

/-- 60_exceptions R130, R135: with no fault event an instruction does not fault: it completes, and all but HLT keep the status. -/
def Obligations.NoEventMeansNoFault : Prop :=
  ∀ (s : State) (i : Instr), s.mustWait i = false → firstEvent (s.events i) = none →
    ∃ t, exec i s = .next t ∧ t.status = (if i.op = .hlt then .halted else s.status)

/-- 20_memory R45: under Fixed, a read and a write at or beyond the buffer's end raise OUT_OF_CAPACITY (here those of OUT
and IN). The record's word is the cell at the pc (log 5). -/
def Obligations.FixedBufferEndFaults : Prop :=
  ∀ (s : State) (o : Operand) (a : Int), s.cfg.memPolicy = .fixed → s.pc + 1 < s.ext → o.mode.legal = true →
    s.effectiveAddress o = some a → (s.ext : Int) ≤ a →
    exec (.out o) s = .next { s with
      status := .faulted ⟨.outOfCapacity, s.pc, some (s.mem.read s.pc.toNat), some 4, some 1⟩ } ∧
    (s.inq ≠ [] → exec (.inp o) s = .next { s with
      status := .faulted ⟨.outOfCapacity, s.pc, some (s.mem.read s.pc.toNat), some 3, some 1⟩ })

/-- 20_memory R44, 10_state R23: under Grow, any read operand whose address is at or beyond the extent and below the limit resolves to
0, and the extent after an instruction that has the operand covers that address; this is the value and the extent that the statements
of ADD, MUL, LT, EQ, OUT, JT, JF and ARB compute with. An OUT of such an operand appends 0 and raises the extent to just that address
plus 1. The invariant's clause on present cells is a premise: it holds of every state of a run. -/
def Obligations.GrowReadBeyondExtentGivesZero : Prop :=
  ∀ (s : State) (o : Operand) (a : Int), s.Inv → s.cfg.memPolicy = .grow → s.effectiveAddress o = some a → (s.ext : Int) ≤ a →
    (∀ p e, s.Resolves .read p o → s.readOperand e p o = .ok (0, max e (a.toNat + 1))) ∧
    s.operandValue o = 0 ∧ (∀ os, o ∈ os → a < s.extentAfter os) ∧
    (s.Resolves .read 1 o →
      exec (.out o) s = .next { s with outq := s.outq ++ [0], ext := a.toNat + 1, pc := s.pc + 2 })

/-- 60_exceptions R130: the six codes are 1 to 6, one each, and none is 0. -/
def Obligations.FaultCodesAreOneToSix : Prop :=
  (FaultCode.unsupportedOpcode.number = 1 ∧ FaultCode.invalidMode.number = 2 ∧
    FaultCode.invalidDestination.number = 3 ∧ FaultCode.addressUnderflow.number = 4 ∧
    FaultCode.outOfCapacity.number = 5 ∧ FaultCode.arithmeticOverflow.number = 6) ∧
  ∀ c d : FaultCode, c.number ≠ 0 ∧ (c.number = d.number → c = d)

/-- 60_exceptions R133: a fault is permanent under every transaction; a resume of a faulted instance changes nothing and returns no
output and the same record. -/
def Obligations.FaultIsPermanent : Prop :=
  ∀ (s : State) (f : FaultRecord) (fuel : Nat), s.status = .faulted f →
    (∀ tx, (s.transact fuel tx).2.status = .faulted f) ∧
    (∀ xs, s.transact fuel (.resume xs) = (.stopped [] (.faulted f), s))

/-- 10_state R27, 60_exceptions R140: a halt is permanent under every transaction, and a resume of a halted machine is a no-op that
discards its input. -/
def Obligations.HaltIsPermanent : Prop :=
  ∀ (s : State) (fuel : Nat), s.status = .halted →
    (∀ tx, (s.transact fuel tx).2.status = .halted) ∧
    (∀ xs, s.transact fuel (.resume xs) = (.stopped [] .halted, s))

/-- The model's choice of what `step` answers where the spec defines no step (30_encoding R73; log 3): it rests on a halted machine,
and stops with its record on a crashed one. -/
def Obligations.StoppedMachineDoesNotRun : Prop :=
  ∀ s : State, (s.status = .halted → step s = .next s) ∧ ∀ f, s.status = .faulted f → step s = .fault (.faulted f)

/-! ### Frames -/

/-- 40_alu R91 to R95, 10_state R20: ADD, MUL, LT and EQ change memory at their destination's effective address alone (at no address
when the destination has none), the pc, and the extent; a fault changes the status. -/
def Obligations.AluFrame : Prop :=
  ∀ (s t : State) (a b d : Operand) (i : Instr), i ∈ [.add a b d, .mul a b d, .lt a b d, .eq a b d] → exec i s = .next t →
    t.cfg = s.cfg ∧ t.rb = s.rb ∧ t.inq = s.inq ∧ t.outq = s.outq ∧
    (t.status = s.status ∨ ∃ f, t.status = .faulted f) ∧
    (t.ext = s.ext ∨ t.ext = s.extentAfter [a, b, d]) ∧
    (∀ addr, s.effectiveAddress d = some addr → ∀ c : Nat, (c : Int) ≠ addr → t.mem.read c = s.mem.read c) ∧
    (s.effectiveAddress d = none → ∀ c : Nat, t.mem.read c = s.mem.read c)

/-- 41_io R102: IN changes memory at its destination's effective address alone, the input queue by its head at most, the pc, and the
extent; a fault changes the status. -/
def Obligations.InFrame : Prop :=
  ∀ (s t : State) (d : Operand), exec (.inp d) s = .next t →
    t.cfg = s.cfg ∧ t.rb = s.rb ∧ t.outq = s.outq ∧ (t.inq = s.inq ∨ t.inq = s.inq.tail) ∧
    (t.status = s.status ∨ ∃ f, t.status = .faulted f) ∧
    (t.ext = s.ext ∨ t.ext = s.extentAfter [d]) ∧
    (∀ addr, s.effectiveAddress d = some addr → ∀ c : Nat, (c : Int) ≠ addr → t.mem.read c = s.mem.read c) ∧
    (s.effectiveAddress d = none → ∀ c : Nat, t.mem.read c = s.mem.read c)

/-- 41_io R103, 42_control R110 and R111, 43_base_halt R120 and R121: OUT, JT, JF, ARB and HLT store to no memory and leave the input
queue; OUT alone changes the output queue, ARB alone the relative base; all but HLT keep the status unless they fault. -/
def Obligations.NonStoringFrame : Prop :=
  ∀ (s t : State) (i : Instr), i.op ∈ [.out, .jt, .jf, .arb, .hlt] → exec i s = .next t →
    t.cfg = s.cfg ∧ t.inq = s.inq ∧ (∀ c : Nat, t.mem.read c = s.mem.read c) ∧
    (i.op ≠ .out → t.outq = s.outq) ∧ (i.op ≠ .arb → t.rb = s.rb) ∧
    (t.status = s.status ∨ (∃ f, t.status = .faulted f) ∨ (i.op = .hlt ∧ t.status = .halted)) ∧
    (t.ext = s.ext ∨ t.ext = s.extentAfter i.operands)

/-! ### The whole machine -/

/-- 10_state R24, R25, 60_exceptions R131, R132: every step keeps the invariant, from every state that has it. -/
def Obligations.StepKeepsTheInvariant : Prop :=
  ∀ s t : State, s.Inv → step s = .next t → t.Inv

/-- 10_state R33: the reset state has the invariant. -/
def Obligations.ResetHasTheInvariant : Prop := State.reset.Inv

/-- 60_exceptions R140 to R145: every host transaction keeps the invariant, a resume of any length among them. -/
def Obligations.TransactionsKeepTheInvariant : Prop :=
  ∀ (s : State) (fuel : Nat) (tx : Transaction), s.Inv → (s.transact fuel tx).2.Inv

/-- 10_state R33, 70_reset R170: a constructed instance has the invariant. The premise is the model's reading of the largest buffer
(log 7). -/
def Obligations.ConstructedInstanceHasTheInvariant : Prop :=
  ∀ (c : Config) (program : List Int) (input : List Cell) (s : State), construct c program input = some s →
    (c.memPolicy = .fixed → s.ext ≤ 2 ^ 63) → s.Inv

/-- 60_exceptions R132, R137, 43_base_halt R121: in the status Ready every step answers a next state; faults, halts and suspensions are
next states. That a step answers on a halted machine too, where 30_encoding R73 defines none, is the model's choice (log 3). -/
def Obligations.StepAnswersUnlessCrashed : Prop :=
  ∀ s : State, (∀ f, s.status ≠ .faulted f) → ∃ t, step s = .next t

/-- 10_state R24: under Grow the extent only ever increases, by steps and by transactions; under Fixed it never changes. -/
def Obligations.ExtentNeverShrinks : Prop :=
  (∀ s t : State, step s = .next t →
    (s.cfg.memPolicy = .grow → s.ext ≤ t.ext) ∧ (s.cfg.memPolicy = .fixed → t.ext = s.ext)) ∧
  (∀ (s : State) (fuel : Nat) (tx : Transaction),
    (s.cfg.memPolicy = .grow → s.ext ≤ (s.transact fuel tx).2.ext) ∧
    (s.cfg.memPolicy = .fixed → (s.transact fuel tx).2.ext = s.ext))

/-- 42_control R113, 10_state R25: only JT and JF redirect the pc; every other instruction that completes advances it by its length,
and HLT, a fault and a suspension leave it. -/
def Obligations.OnlyJumpsRedirectThePc : Prop :=
  ∀ (s t : State) (i : Instr), s.status = .ready → exec i s = .next t → i.op ≠ .jt → i.op ≠ .jf →
    t.pc = if t.status = .ready ∧ s.mustWait i = false then s.pc + i.op.length else s.pc

/-- 10_state R26: the relative base is mutated only by ARB. -/
def Obligations.OnlyArbWritesTheRelativeBase : Prop :=
  ∀ s t : State, step s = .next t → t.rb ≠ s.rb → s.Fetches ∧ ∃ a, s.decodeAt s.pc.toNat = .ok (.arb a)

/-- 60_exceptions R137: suspension occurs only at an IN whose queue is empty: after a resume that stops with SUSPENDED the pc addresses
it and the status is Ready. -/
def Obligations.OnlyInputSuspends : Prop :=
  ∀ (s t : State) (fuel : Nat) (xs out : List Cell), s.resume fuel xs = .returned out .suspended t →
    t.Fetches ∧ t.inq = [] ∧ ∃ d, t.decodeAt t.pc.toNat = .ok (.inp d)

/-- 41_io R101: no instruction reads the output queue: what was queued before stays in front and changes nothing else. -/
def Obligations.OutputQueueIsNeverRead : Prop :=
  ∀ (s : State) (q : List Cell),
    (∀ t, step s = .next t → step { s with outq := q ++ s.outq } = .next { t with outq := q ++ t.outq }) ∧
    (∀ f, step s = .fault f → step { s with outq := q ++ s.outq } = .fault f)

/-- 41_io R100, R102: values pushed behind the queue change no step that does not suspend, and stay behind it. -/
def Obligations.QueuedInputWaitsItsTurn : Prop :=
  ∀ (s t : State) (ys : List Cell), s.suspends = false → step s = .next t →
    step { s with inq := s.inq ++ ys } = .next { t with inq := t.inq ++ ys }

/-- 60_exceptions R138: a program that suspends and is given more input produces the same outputs, the same stop reason and the same
final state as when it is given all its input at once; only the split of the outputs differs. -/
def Obligations.SuspendedResumeEqualsOneResume : Prop :=
  ∀ (s t u : State) (k m : Nat) (xs ys out out' : List Cell) (r : StopReason),
    s.resume k xs = .returned out .suspended t → t.resume m ys = .returned out' r u →
    ∃ n, s.resume n (xs ++ ys) = .returned (out ++ out') r u

/-- 60_exceptions R153, R151: what a resume returns does not depend on the fuel it is run under. -/
def Obligations.ResumeReturnsOneResult : Prop :=
  ∀ (s t u : State) (k m : Nat) (xs out out' : List Cell) (r r' : StopReason),
    s.resume k xs = .returned out r t → s.resume m xs = .returned out' r' u → out = out' ∧ r = r' ∧ t = u

/-- 60_exceptions R134, R140, 41_io R101, 10_state R29: a resume of a ready machine takes the input to the tail of its queue and steps
until the first stop; it returns what was queued followed by what the OUT steps of the run append, in order, before a fault too; the
state it leaves is that of the last step with the output queue emptied. -/
def Obligations.ResumeReturnsAndDrainsTheOutput : Prop :=
  ∀ (s t : State) (fuel : Nat) (xs out : List Cell) (r : StopReason), s.status = .ready →
    s.resume fuel xs = .returned out r t →
    ∃ (n : Nat) (u v : State), n ≤ fuel ∧
      (stepsFrom n { s with inq := s.inq ++ xs }).getLast? = some u ∧
      (∀ w ∈ stepsFrom n { s with inq := s.inq ++ xs }, w.status = .ready) ∧
      (∀ w ∈ (stepsFrom n { s with inq := s.inq ++ xs }).dropLast, w.suspends = false) ∧
      step u = .next v ∧ StopsWith u v r ∧ t = { v with outq := [] } ∧
      out = s.outq ++ (stepsFrom n { s with inq := s.inq ++ xs }).flatMap State.outputOf

/-- 20_memory R55: an ADD that stores the cell right behind itself is followed by the instruction it has stored: the write is seen by
the next fetch, and the advance is by the decoded length. -/
def Obligations.StoredInstructionRunsNext : Prop :=
  ∀ (s : State) (a b d : Operand) (r : Cell) (j : Instr), s.status = .ready → s.mem.wf = true →
    s.Resolves .read 1 a → s.Resolves .read 2 b → s.Resolves .write 3 d → s.effectiveAddress d = some (s.pc + 4) →
    r.toInt = (s.operandValue a).toInt + (s.operandValue b).toInt →
    decode s.cfg.extraDigits r (s.mem.read ((s.pc + 4).toNat + 1)) (s.mem.read ((s.pc + 4).toNat + 2))
      (s.mem.read ((s.pc + 4).toNat + 3)) = .ok j →
    ∃ t, exec (.add a b d) s = .next t ∧ t.pc = s.pc + 4 ∧ step t = exec j t

/-! ### Construction and the host -/

/-- 10_state R33: construction sets every field to its reset value. -/
def Obligations.ConstructionSetsEveryField : Prop :=
  ∀ (c : Config) (program : List Int) (input : List Cell) (s : State), construct c program input = some s →
    (∀ a, (h : a < program.length) → (s.mem.read a).toInt = program[a]) ∧
    (∀ a, program.length ≤ a → s.mem.read a = 0) ∧
    (c.memPolicy = .grow → s.ext = program.length) ∧
    (c.memPolicy = .fixed → ∃ cap, c.cap = some cap ∧ s.ext = max program.length cap) ∧
    s.pc = 0 ∧ s.rb = 0 ∧ s.status = .ready ∧ s.inq = input ∧ s.outq = [] ∧ s.cfg = c

/-- 70_reset R172: construction from a text is refused exactly when the text is no comma-separated sequence of base-10 integers, one
of its integers is outside INT64, or CAP is not finite under Fixed; an empty program is legal and the first resume halts at once. The
white space around the text, the sign an integer may have and the blank text are the model's choice (log 6). -/
def Obligations.ConstructionIsRefusedExactlyOnLoadErrors : Prop :=
  (∀ (c : Config) (text : List Char) (input : List Cell), constructFromText c text input = none ↔
    (¬ ∃ program, IsLoadText text program) ∨ (∃ program, IsLoadText text program ∧ ∃ v ∈ program, ¬ fits64 v) ∨
      (c.memPolicy = .fixed ∧ c.cap = none)) ∧
  (∀ (c : Config) (input : List Cell), c.memPolicy = .grow → ∃ s, construct c [] input = some s ∧ s.ext = 0 ∧
    ∀ fuel, ∃ t, s.resume (fuel + 1) [] = .returned [] .halted t)

/-- 70_reset R171: a comma-separated sequence of base-10 integers, with white space around it, loads the program of those
integers; construction from the text is construction from the program. What counts as white space is the model's choice
(log 6). -/
def Obligations.LoadTextGivesItsProgram : Prop :=
  ∀ (program : List Int) (before after : List Char), (∀ ch ∈ before ++ after, isBlank ch = true) →
    parseProgram (before ++ programText program ++ after) = some program ∧
    ∀ (c : Config) (input : List Cell),
      constructFromText c (before ++ programText program ++ after) input = construct c program input

/-- 60_exceptions R141: a pushed value goes to the tail of the input queue, in any status, with no other effect. -/
def Obligations.PushAppendsToTheInput : Prop :=
  ∀ (s : State) (fuel : Nat) (v : Cell),
    s.transact fuel (.pushInput v) = (.nothing, { s with inq := s.inq ++ [v] })

/-- 60_exceptions R142: `is_halted` answers whether the status is Halted, `status` the status; neither changes anything. The status
becomes Halted only by a step that runs opcode 99 or whose pc is at or beyond the extent. -/
def Obligations.QueriesAnswerTheStatus : Prop :=
  (∀ (s : State) (fuel : Nat),
    s.transact fuel .isHalted = (.flag (decide (s.status = .halted)), s) ∧
    s.transact fuel .status = (.status s.status, s)) ∧
  ∀ s t : State, step s = .next t → s.status ≠ .halted → t.status = .halted →
    s.status = .ready ∧ 0 ≤ s.pc ∧ (s.ext ≤ s.pc ∨ (s.pc < s.ext ∧ s.decodeAt s.pc.toNat = .ok .hlt))

/-- 60_exceptions R143: a peek below the limit answers the cell, any other is refused, and neither changes anything. -/
def Obligations.PeekReadsBelowTheLimit : Prop :=
  ∀ (s : State) (fuel : Nat) (a : Int),
    (0 ≤ a → a < s.addrLimit → s.transact fuel (.peek a) = (.cell (s.mem.read a.toNat), s)) ∧
    (a < 0 ∨ (s.addrLimit : Int) ≤ a → s.transact fuel (.peek a) = (.refused, s))

/-- 60_exceptions R144: a poke below the limit writes its cell alone and, under Grow, raises the extent to cover it; any other is
refused with no effect. -/
def Obligations.PokeWritesOneCell : Prop :=
  ∀ (s : State) (fuel : Nat) (a : Int) (v : Cell), s.mem.wf = true →
    (0 ≤ a → a < s.addrLimit → ∃ t, s.transact fuel (.poke a v) = (.nothing, t) ∧
      (∀ c : Nat, t.mem.read c = if (c : Int) = a then v else s.mem.read c) ∧
      (s.cfg.memPolicy = .grow → t.ext = max s.ext (a.toNat + 1)) ∧ (s.cfg.memPolicy = .fixed → t.ext = s.ext) ∧
      t.cfg = s.cfg ∧ t.pc = s.pc ∧ t.rb = s.rb ∧ t.status = s.status ∧ t.inq = s.inq ∧ t.outq = s.outq) ∧
    (a < 0 ∨ (s.addrLimit : Int) ≤ a → s.transact fuel (.poke a v) = (.refused, s))

/-- A word placed where the machine fetches runs as the decoder reads it. The placing is the model's own (log 4). -/
def Obligations.PlacedWordRunsNext : Prop :=
  ∀ (s : State) (nbits w : Nat) (i : Instr), s.mem.wf = true → s.cfg.extraDigits = .ignore →
    decodeTableWord nbits w = some i → step (s.withFetchWord nbits w) = exec i (s.withFetchWord nbits w)

/-! ### Capacity under Grow -/

/-- 20_memory R43, R44: under Grow the address limit is `min(CAP, 2^63)`, or 2^63 where CAP is infinite. So an OUT whose literal or
whose address is at or above it, and an IN whose address is, raise OUT_OF_CAPACITY; where the literal and the address are below it, both
complete and the extent covers the address. The record's word is the cell at the pc (log 5). -/
def Obligations.GrowCapacityIsTheAddressLimit : Prop :=
  ∀ (s : State) (limit : Nat), s.cfg.memPolicy = .grow → (s.cfg.cap = none → limit = 2 ^ 63) →
    (∀ c, s.cfg.cap = some c → limit = min c (2 ^ 63)) →
    s.addrLimit = limit ∧
    (∀ o, o.mode.legal = true → (limit : Int) ≤ s.pc + 1 → exec (.out o) s = .next { s with
      status := .faulted ⟨.outOfCapacity, s.pc, some (s.mem.read s.pc.toNat), some 4, some 1⟩ }) ∧
    ∀ (o : Operand) (a : Int), o.mode.legal = true → s.pc + 1 < limit → s.effectiveAddress o = some a →
      ((limit : Int) ≤ a →
        exec (.out o) s = .next { s with
          status := .faulted ⟨.outOfCapacity, s.pc, some (s.mem.read s.pc.toNat), some 4, some 1⟩ } ∧
        (s.inq ≠ [] → exec (.inp o) s = .next { s with
          status := .faulted ⟨.outOfCapacity, s.pc, some (s.mem.read s.pc.toNat), some 3, some 1⟩ })) ∧
      (0 ≤ a → a < limit →
        exec (.out o) s = .next { s with
          outq := s.outq ++ [s.mem.read a.toNat], ext := max s.ext (a.toNat + 1), pc := s.pc + 2 } ∧
        ∀ v rest, s.inq = v :: rest → exec (.inp o) s = .next { s with
          mem := s.mem.write a.toNat v, inq := rest, ext := max s.ext (a.toNat + 1), pc := s.pc + 2 })
end

