-- ==== Sys2Proof/Laws/Decode.lean ====
section
/-! SUPPORT. The opcode map and the mode digits, read and written. -/

namespace Sys2Proof

@[simp] theorem Mode.ofDigit_digit (m : Mode) : Mode.ofDigit m.digit = m := by
  cases m with
  | position => rfl
  | immediate => rfl
  | relative => rfl
  | illegal e =>
    have h : 3 + e.val = e.val + 3 := Nat.add_comm 3 e.val
    simp only [Mode.digit, h, Mode.ofDigit]
    congr 1
    exact Fin.ext (Nat.mod_eq_of_lt e.isLt)

theorem Mode.digit_ofDigit {d : Nat} (h : d < 10) : (Mode.ofDigit d).digit = d := by
  match d with
  | 0 => rfl
  | 1 => rfl
  | 2 => rfl
  | d + 3 =>
    simp only [Mode.ofDigit, Mode.digit, Fin.ofNat]
    have : d % 7 = d := Nat.mod_eq_of_lt (by omega)
    omega

theorem Mode.digit_lt (m : Mode) : m.digit < 10 := by
  cases m with
  | illegal e => have := e.isLt; simp only [Mode.digit]; omega
  | _ => decide

@[simp] theorem Opcode.ofNumber_number (op : Opcode) : Opcode.ofNumber op.number = some op := by
  cases op <;> rfl

/-- A number the opcode map reads is the number of what it reads (30_encoding R67). -/
theorem Opcode.number_of_ofNumber {n : Nat} {op : Opcode} (h : Opcode.ofNumber n = some op) : op.number = n := by
  unfold Opcode.ofNumber at h
  split at h <;> first | (injection h with h; subst h; rfl) | cases h

theorem Opcode.number_lt (op : Opcode) : op.number < 100 := by cases op <;> decide

@[simp] theorem Opcode.instr_op (op : Opcode) (a b c : Operand) : (op.instr a b c).op = op := by cases op <;> rfl

theorem Opcode.instr_operands (op : Opcode) (a b c : Operand) :
    (op.instr a b c).operands = [a, b, c].take op.count := by cases op <;> rfl

theorem Instr.operands_length (i : Instr) : i.operands.length = i.op.count := by cases i <;> rfl

/-- A non-negative cell is its natural number. -/
theorem Cell.toInt_of_nonneg {w : Cell} (h : ¬ w.toInt < 0) : w.toInt = w.toNat := by
  have := BitVec.toInt_eq_toNat_cond w
  have h2 := w.isLt
  split at this <;> omega

/-- Everything the decoder answers with when it does not reject (30_encoding R61 to R67). -/
theorem decode_ok {x : ExtraDigits} {w l1 l2 l3 : Cell} {i : Instr} :
    decode x w l1 l2 l3 = .ok i ↔ ¬ w.toInt < 0 ∧ ∃ op, Opcode.ofNumber (w.toNat % 100) = some op ∧
      ¬ (x = .fault ∧ w.toNat / 10 ^ (op.count + 2) ≠ 0) ∧
      i = op.instr ⟨.ofDigit (modeDigit w.toNat 1), l1⟩ ⟨.ofDigit (modeDigit w.toNat 2), l2⟩
        ⟨.ofDigit (modeDigit w.toNat 3), l3⟩ := by
  unfold decode
  by_cases h : w.toInt < 0
  · simp [h]
  · simp only [h, if_false]
    cases ho : Opcode.ofNumber (w.toNat % 100) with
    | none => simp
    | some op =>
      simp only
      split
      · next hc =>
        constructor
        · intro h'; cases h'
        · rintro ⟨_, op', hop, hn, _⟩; injection hop with hop; subst hop; exact absurd hc hn
      · next hc =>
        constructor
        · intro h'; injection h' with h'; exact ⟨not_false, op, rfl, hc, h'.symm⟩
        · rintro ⟨_, op', hop, hn, hi⟩; injection hop with hop; subst hop; rw [hi]

/-- A number below 2^63 put in a cell reads as itself. -/
theorem Cell.ofNat_small {n : Nat} (h : n < 2 ^ 63) :
    (BitVec.ofNat 64 n).toNat = n ∧ ¬ (BitVec.ofNat 64 n).toInt < 0 := by
  have h1 : (BitVec.ofNat 64 n).toNat = n := by rw [BitVec.toNat_ofNat]; omega
  refine ⟨h1, ?_⟩
  rw [BitVec.toInt_eq_toNat_of_lt (by rw [h1]; omega), h1]; omega

end Sys2Proof
end

