-- ==== Sys2Proof/Laws/Memory.lean ====
section
/-! SUPPORT. The laws of memory: what a read gives after a write, and that every operation keeps the canonical form. -/

namespace Sys2Proof.Machine

@[simp] theorem Memory.read_nil (a : Nat) : Memory.read [] a = 0 := rfl

@[simp] theorem Memory.writeList_nil (m : Memory) (a : Nat) : m.writeList a [] = m := rfl

@[simp] theorem Memory.writeList_cons (m : Memory) (a : Nat) (v : Cell) (vs : List Cell) :
    m.writeList a (v :: vs) = (m.write a v).writeList (a + 1) vs := rfl

/-- The canonical form, one entry at a time. -/
theorem Memory.wf_cons {b : Nat} {u : Cell} {m : Memory} :
    Memory.wf ((b, u) :: m) = true ↔ u ≠ 0 ∧ (∀ e ∈ m, b < e.1) ∧ Memory.wf m = true := by
  simp [Memory.wf, and_assoc]

/-- An address no entry lists reads 0 (10_state R23). -/
theorem Memory.read_of_unlisted {m : Memory} {a : Nat} (h : ∀ e ∈ m, e.1 ≠ a) : m.read a = 0 := by
  induction m with
  | nil => rfl
  | cons e m ih =>
    obtain ⟨b, u⟩ := e
    have hb : a ≠ b := fun hab => h (b, u) (by simp) hab.symm
    simp only [Memory.read, if_neg hb]
    exact ih (fun e he => h e (by simp [he]))

/-- A read after a write gives the value written at its address, and what was there before at every other. -/
theorem Memory.read_write {m : Memory} (hm : m.wf = true) (a b : Nat) (v : Cell) :
    (m.write a v).read b = if b = a then v else m.read b := by
  induction m with
  | nil =>
    by_cases hv : v = 0
    · simp [Memory.write, hv]
    · simp only [Memory.write, if_neg hv, Memory.read]
  | cons e m ih =>
    obtain ⟨c, u⟩ := e
    obtain ⟨hu, hlt, hwf⟩ := Memory.wf_cons.1 hm
    simp only [Memory.write]
    by_cases h1 : a < c
    · simp only [if_pos h1]
      by_cases hv : v = 0
      · simp only [if_pos hv]
        split
        · next hba =>
          subst hba
          rw [hv]
          refine Memory.read_of_unlisted (fun e he => ?_)
          rcases List.mem_cons.1 he with rfl | he
          · exact fun h => by simp at h; omega
          · exact fun h => by have := hlt e he; omega
        · rfl
      · simp only [if_neg hv, Memory.read]
    · simp only [if_neg h1]
      by_cases h2 : a = c
      · subst h2
        simp only [if_true]
        by_cases hv : v = 0
        · simp only [if_pos hv]
          split
          · next hba =>
            subst hba
            rw [hv]
            exact Memory.read_of_unlisted (fun e he h => by have := hlt e he; omega)
          · next hba => simp only [Memory.read, if_neg hba]
        · simp only [if_neg hv, Memory.read]
          split <;> rfl
      · simp only [if_neg h2, Memory.read]
        rw [ih hwf]
        by_cases hbc : b = c
        · have hba : b ≠ a := by omega
          rw [if_pos hbc, if_neg hba, if_pos hbc]
        · rw [if_neg hbc, if_neg hbc]

theorem Memory.read_write_self {m : Memory} (hm : m.wf = true) (a : Nat) (v : Cell) : (m.write a v).read a = v := by
  rw [Memory.read_write hm, if_pos rfl]

/-- A write leaves every other address alone, whatever the form of the memory. -/
theorem Memory.read_write_other (m : Memory) {a b : Nat} (v : Cell) (h : b ≠ a) :
    (m.write a v).read b = m.read b := by
  induction m with
  | nil =>
    simp only [Memory.write]
    split
    · rfl
    · simp only [Memory.read, if_neg h]
  | cons e m ih =>
    obtain ⟨c, u⟩ := e
    simp only [Memory.write]
    split
    · split
      · rfl
      · simp only [Memory.read, if_neg h]
    · split
      · next hac =>
        subst hac
        split <;> simp only [Memory.read, if_neg h]
      · simp only [Memory.read, ih]

/-- Whatever holds of the written entry and of every entry before holds of every entry after a write. -/
theorem Memory.forall_write {m : Memory} {a : Nat} {v : Cell} {P : Nat × Cell → Prop} (hv : P (a, v))
    (hm : ∀ e ∈ m, P e) : ∀ e ∈ m.write a v, P e := by
  induction m with
  | nil =>
    simp only [Memory.write]
    split <;> simp_all
  | cons e m ih =>
    obtain ⟨c, u⟩ := e
    have ih' := ih (fun e he => hm e (by simp [he]))
    simp only [Memory.write]
    split
    · split <;> simp_all
    · split
      · split <;> simp_all
      · intro e he
        rcases List.mem_cons.1 he with rfl | he
        · exact hm _ (by simp)
        · exact ih' e he

/-- A write keeps the canonical form. -/
theorem Memory.wf_write {m : Memory} (hm : m.wf = true) (a : Nat) (v : Cell) : (m.write a v).wf = true := by
  induction m with
  | nil =>
    simp only [Memory.write]
    split
    · rfl
    · next h => exact Memory.wf_cons.2 ⟨h, by simp, rfl⟩
  | cons e m ih =>
    obtain ⟨c, u⟩ := e
    obtain ⟨hu, hlt, hwf⟩ := Memory.wf_cons.1 hm
    simp only [Memory.write]
    split
    · next hac =>
      split
      · exact hm
      · next hv =>
        refine Memory.wf_cons.2 ⟨hv, ?_, hm⟩
        intro e he
        rcases List.mem_cons.1 he with rfl | he
        · exact hac
        · exact Nat.lt_trans hac (hlt e he)
    · split
      · next h2 =>
        split
        · exact hwf
        · next hv => exact Memory.wf_cons.2 ⟨hv, fun e he => h2 ▸ hlt e he, hwf⟩
      · refine Memory.wf_cons.2 ⟨hu, ?_, ih hwf⟩
        exact Memory.forall_write (P := fun e => c < e.1) (by omega) hlt

/-- Writing cells one after another keeps the canonical form. -/
theorem Memory.wf_writeList {m : Memory} (hm : m.wf = true) (a : Nat) (vs : List Cell) :
    (m.writeList a vs).wf = true := by
  induction vs generalizing m a with
  | nil => exact hm
  | cons v vs ih => exact ih (Memory.wf_write hm a v) (a + 1)

/-- What a read gives after cells are written one after another. -/
theorem Memory.read_writeList {m : Memory} (hm : m.wf = true) (vs : List Cell) (a b : Nat) :
    (m.writeList a vs).read b = if h : a ≤ b ∧ b < a + vs.length then vs[b - a]'(by omega) else m.read b := by
  induction vs generalizing m a with
  | nil => simp
  | cons v vs ih =>
    simp only [Memory.writeList_cons]
    rw [ih (Memory.wf_write hm a v)]
    simp only [List.length_cons]
    by_cases h1 : a + 1 ≤ b ∧ b < a + 1 + vs.length
    · rw [dif_pos h1, dif_pos (by omega)]
      have : b - a = (b - (a + 1)) + 1 := by omega
      simp only [this, List.getElem_cons_succ]
    · rw [dif_neg h1]
      by_cases h2 : b = a
      · subst h2; rw [Memory.read_write_self hm, dif_pos (by omega)]; simp
      · rw [Memory.read_write_other _ _ h2, dif_neg (by omega)]

/-- Writing cells below a bound keeps every entry below it. -/
theorem Memory.writeList_lt {m : Memory} (vs : List Cell) (a n : Nat) (hn : a + vs.length ≤ n)
    (h : ∀ e ∈ m, e.1 < n) : ∀ e ∈ m.writeList a vs, e.1 < n := by
  induction vs generalizing m a with
  | nil => exact h
  | cons v vs ih =>
    simp only [List.length_cons] at hn
    exact ih (a + 1) (by omega) (Memory.forall_write (P := fun e => e.1 < n) (by simp only; omega) h)

/-- Equal reads are equal memories: the form is canonical. -/
theorem Memory.eq_of_read_eq {m n : Memory} (hm : m.wf = true) (hn : n.wf = true)
    (h : ∀ a, m.read a = n.read a) : m = n := by
  induction m generalizing n with
  | nil =>
    cases n with
    | nil => rfl
    | cons e n =>
      obtain ⟨b, u⟩ := e
      have hu := (Memory.wf_cons.1 hn).1
      have := h b
      simp [Memory.read] at this
      exact absurd this.symm hu
  | cons e m ih =>
    obtain ⟨b, u⟩ := e
    obtain ⟨hu, hlt, hwf⟩ := Memory.wf_cons.1 hm
    cases n with
    | nil =>
      have := h b
      simp [Memory.read] at this
      exact absurd this hu
    | cons e' n =>
      obtain ⟨c, w⟩ := e'
      obtain ⟨hw, hlt', hwf'⟩ := Memory.wf_cons.1 hn
      have hbc : b = c := by
        rcases Nat.lt_trichotomy b c with hl | he | hg
        · have hb := h b
          have h0 : Memory.read ((c, w) :: n) b = 0 := by
            refine Memory.read_of_unlisted (fun e he => ?_)
            rcases List.mem_cons.1 he with rfl | he
            · exact fun h => by simp at h; omega
            · exact fun h => by have := hlt' e he; omega
          rw [h0] at hb
          simp [Memory.read] at hb
          exact absurd hb hu
        · exact he
        · have hc := h c
          have h0 : Memory.read ((b, u) :: m) c = 0 := by
            refine Memory.read_of_unlisted (fun e he => ?_)
            rcases List.mem_cons.1 he with rfl | he
            · exact fun h => by simp at h; omega
            · exact fun h => by have := hlt e he; omega
          rw [h0] at hc
          simp [Memory.read] at hc
          exact absurd hc.symm hw
      subst hbc
      have huw : u = w := by
        have := h b
        simpa [Memory.read] using this
      subst huw
      have : m = n := by
        refine ih hwf hwf' (fun a => ?_)
        by_cases hab : a = b
        · rw [hab, Memory.read_of_unlisted (fun e he h => by have := hlt e he; omega),
            Memory.read_of_unlisted (fun e he h => by have := hlt' e he; omega)]
        · have := h a
          simpa [Memory.read, hab] using this
      rw [this]

/-- Reset memory is in canonical form. -/
theorem Memory.wf_reset : State.reset.mem.wf = true := rfl

end Sys2Proof.Machine
end

