-- ==== Sys2Proof/Laws/State.lean ====
section
/-! SUPPORT. One lemma per field per update of State, and what reset holds. -/

namespace Sys2Proof.Machine

@[simp] theorem State.setMem_cfg (s : State) (m : Memory) : (s.setMem m).cfg = s.cfg := rfl
@[simp] theorem State.setMem_mem (s : State) (m : Memory) : (s.setMem m).mem = m := rfl
@[simp] theorem State.setMem_ext (s : State) (m : Memory) : (s.setMem m).ext = s.ext := rfl
@[simp] theorem State.setMem_pc (s : State) (m : Memory) : (s.setMem m).pc = s.pc := rfl
@[simp] theorem State.setMem_rb (s : State) (m : Memory) : (s.setMem m).rb = s.rb := rfl
@[simp] theorem State.setMem_status (s : State) (m : Memory) : (s.setMem m).status = s.status := rfl
@[simp] theorem State.setMem_inq (s : State) (m : Memory) : (s.setMem m).inq = s.inq := rfl
@[simp] theorem State.setMem_outq (s : State) (m : Memory) : (s.setMem m).outq = s.outq := rfl

@[simp] theorem State.setExt_cfg (s : State) (e : Nat) : (s.setExt e).cfg = s.cfg := rfl
@[simp] theorem State.setExt_mem (s : State) (e : Nat) : (s.setExt e).mem = s.mem := rfl
@[simp] theorem State.setExt_ext (s : State) (e : Nat) : (s.setExt e).ext = e := rfl
@[simp] theorem State.setExt_pc (s : State) (e : Nat) : (s.setExt e).pc = s.pc := rfl
@[simp] theorem State.setExt_rb (s : State) (e : Nat) : (s.setExt e).rb = s.rb := rfl
@[simp] theorem State.setExt_status (s : State) (e : Nat) : (s.setExt e).status = s.status := rfl
@[simp] theorem State.setExt_inq (s : State) (e : Nat) : (s.setExt e).inq = s.inq := rfl
@[simp] theorem State.setExt_outq (s : State) (e : Nat) : (s.setExt e).outq = s.outq := rfl

@[simp] theorem State.setPc_cfg (s : State) (p : Int) : (s.setPc p).cfg = s.cfg := rfl
@[simp] theorem State.setPc_mem (s : State) (p : Int) : (s.setPc p).mem = s.mem := rfl
@[simp] theorem State.setPc_ext (s : State) (p : Int) : (s.setPc p).ext = s.ext := rfl
@[simp] theorem State.setPc_pc (s : State) (p : Int) : (s.setPc p).pc = p := rfl
@[simp] theorem State.setPc_rb (s : State) (p : Int) : (s.setPc p).rb = s.rb := rfl
@[simp] theorem State.setPc_status (s : State) (p : Int) : (s.setPc p).status = s.status := rfl
@[simp] theorem State.setPc_inq (s : State) (p : Int) : (s.setPc p).inq = s.inq := rfl
@[simp] theorem State.setPc_outq (s : State) (p : Int) : (s.setPc p).outq = s.outq := rfl

@[simp] theorem State.setRb_cfg (s : State) (r : Cell) : (s.setRb r).cfg = s.cfg := rfl
@[simp] theorem State.setRb_mem (s : State) (r : Cell) : (s.setRb r).mem = s.mem := rfl
@[simp] theorem State.setRb_ext (s : State) (r : Cell) : (s.setRb r).ext = s.ext := rfl
@[simp] theorem State.setRb_pc (s : State) (r : Cell) : (s.setRb r).pc = s.pc := rfl
@[simp] theorem State.setRb_rb (s : State) (r : Cell) : (s.setRb r).rb = r := rfl
@[simp] theorem State.setRb_status (s : State) (r : Cell) : (s.setRb r).status = s.status := rfl
@[simp] theorem State.setRb_inq (s : State) (r : Cell) : (s.setRb r).inq = s.inq := rfl
@[simp] theorem State.setRb_outq (s : State) (r : Cell) : (s.setRb r).outq = s.outq := rfl

@[simp] theorem State.setStatus_cfg (s : State) (st : Status) : (s.setStatus st).cfg = s.cfg := rfl
@[simp] theorem State.setStatus_mem (s : State) (st : Status) : (s.setStatus st).mem = s.mem := rfl
@[simp] theorem State.setStatus_ext (s : State) (st : Status) : (s.setStatus st).ext = s.ext := rfl
@[simp] theorem State.setStatus_pc (s : State) (st : Status) : (s.setStatus st).pc = s.pc := rfl
@[simp] theorem State.setStatus_rb (s : State) (st : Status) : (s.setStatus st).rb = s.rb := rfl
@[simp] theorem State.setStatus_status (s : State) (st : Status) : (s.setStatus st).status = st := rfl
@[simp] theorem State.setStatus_inq (s : State) (st : Status) : (s.setStatus st).inq = s.inq := rfl
@[simp] theorem State.setStatus_outq (s : State) (st : Status) : (s.setStatus st).outq = s.outq := rfl

@[simp] theorem State.setInq_cfg (s : State) (q : List Cell) : (s.setInq q).cfg = s.cfg := rfl
@[simp] theorem State.setInq_mem (s : State) (q : List Cell) : (s.setInq q).mem = s.mem := rfl
@[simp] theorem State.setInq_ext (s : State) (q : List Cell) : (s.setInq q).ext = s.ext := rfl
@[simp] theorem State.setInq_pc (s : State) (q : List Cell) : (s.setInq q).pc = s.pc := rfl
@[simp] theorem State.setInq_rb (s : State) (q : List Cell) : (s.setInq q).rb = s.rb := rfl
@[simp] theorem State.setInq_status (s : State) (q : List Cell) : (s.setInq q).status = s.status := rfl
@[simp] theorem State.setInq_inq (s : State) (q : List Cell) : (s.setInq q).inq = q := rfl
@[simp] theorem State.setInq_outq (s : State) (q : List Cell) : (s.setInq q).outq = s.outq := rfl

@[simp] theorem State.setOutq_cfg (s : State) (q : List Cell) : (s.setOutq q).cfg = s.cfg := rfl
@[simp] theorem State.setOutq_mem (s : State) (q : List Cell) : (s.setOutq q).mem = s.mem := rfl
@[simp] theorem State.setOutq_ext (s : State) (q : List Cell) : (s.setOutq q).ext = s.ext := rfl
@[simp] theorem State.setOutq_pc (s : State) (q : List Cell) : (s.setOutq q).pc = s.pc := rfl
@[simp] theorem State.setOutq_rb (s : State) (q : List Cell) : (s.setOutq q).rb = s.rb := rfl
@[simp] theorem State.setOutq_status (s : State) (q : List Cell) : (s.setOutq q).status = s.status := rfl
@[simp] theorem State.setOutq_inq (s : State) (q : List Cell) : (s.setOutq q).inq = s.inq := rfl
@[simp] theorem State.setOutq_outq (s : State) (q : List Cell) : (s.setOutq q).outq = q := rfl

@[simp] theorem State.takeFault_cfg (s : State) (f : FaultRecord) : (s.takeFault f).cfg = s.cfg := rfl
@[simp] theorem State.takeFault_mem (s : State) (f : FaultRecord) : (s.takeFault f).mem = s.mem := rfl
@[simp] theorem State.takeFault_ext (s : State) (f : FaultRecord) : (s.takeFault f).ext = s.ext := rfl
@[simp] theorem State.takeFault_pc (s : State) (f : FaultRecord) : (s.takeFault f).pc = s.pc := rfl
@[simp] theorem State.takeFault_rb (s : State) (f : FaultRecord) : (s.takeFault f).rb = s.rb := rfl
@[simp] theorem State.takeFault_status (s : State) (f : FaultRecord) : (s.takeFault f).status = .faulted f := rfl
@[simp] theorem State.takeFault_inq (s : State) (f : FaultRecord) : (s.takeFault f).inq = s.inq := rfl
@[simp] theorem State.takeFault_outq (s : State) (f : FaultRecord) : (s.takeFault f).outq = s.outq := rfl

@[simp] theorem State.commit_cfg (s : State) (e : Nat) (p : Int) : (s.commit e p).cfg = s.cfg := rfl
@[simp] theorem State.commit_mem (s : State) (e : Nat) (p : Int) : (s.commit e p).mem = s.mem := rfl
@[simp] theorem State.commit_ext (s : State) (e : Nat) (p : Int) : (s.commit e p).ext = e := rfl
@[simp] theorem State.commit_pc (s : State) (e : Nat) (p : Int) : (s.commit e p).pc = p := rfl
@[simp] theorem State.commit_rb (s : State) (e : Nat) (p : Int) : (s.commit e p).rb = s.rb := rfl
@[simp] theorem State.commit_status (s : State) (e : Nat) (p : Int) : (s.commit e p).status = s.status := rfl
@[simp] theorem State.commit_inq (s : State) (e : Nat) (p : Int) : (s.commit e p).inq = s.inq := rfl
@[simp] theorem State.commit_outq (s : State) (e : Nat) (p : Int) : (s.commit e p).outq = s.outq := rfl

@[simp] theorem State.halt_cfg (s : State) : (s.halt).cfg = s.cfg := rfl
@[simp] theorem State.halt_mem (s : State) : (s.halt).mem = s.mem := rfl
@[simp] theorem State.halt_ext (s : State) : (s.halt).ext = s.ext := rfl
@[simp] theorem State.halt_pc (s : State) : (s.halt).pc = s.pc := rfl
@[simp] theorem State.halt_rb (s : State) : (s.halt).rb = s.rb := rfl
@[simp] theorem State.halt_status (s : State) : (s.halt).status = .halted := rfl
@[simp] theorem State.halt_inq (s : State) : (s.halt).inq = s.inq := rfl
@[simp] theorem State.halt_outq (s : State) : (s.halt).outq = s.outq := rfl

/-- The limit depends on the configuration and the extent alone (20_memory R43). -/
theorem State.addrLimit_congr {s t : State} (hc : s.cfg = t.cfg) (he : s.ext = t.ext) : s.addrLimit = t.addrLimit := by
  unfold State.addrLimit; rw [hc, he]

/-- Under Grow the limit is at most 2^63 (20_memory R43). -/
theorem State.addrLimit_grow_le {s : State} (h : s.cfg.memPolicy = .grow) : s.addrLimit ≤ 2 ^ 63 := by
  unfold State.addrLimit; rw [h]; simp only
  split
  · exact Nat.le_refl _
  · exact Nat.min_le_right _ _

/-- Under Fixed the limit is the extent (20_memory R43). -/
theorem State.addrLimit_fixed {s : State} (h : s.cfg.memPolicy = .fixed) : s.addrLimit = s.ext := by
  unfold State.addrLimit; rw [h]

end Sys2Proof.Machine
end

