-- ==== Sys2Proof/Laws/Ops.lean ====
section
/-! SUPPORT. What each shared operation can do: the access check, memory access, the result check, operand resolution,
and the end of an instruction. -/

namespace Sys2Proof.Machine

/-- The pending extent an accepted access leaves (20_memory R43 to R45). -/
def State.grown (s : State) (e : Nat) (a : Int) : Nat :=
  if s.cfg.memPolicy = .grow ∧ (e : Int) ≤ a then a.toNat + 1 else e

/-- The access check answers an extent exactly on an address from 0 up to the limit (20_memory R43). -/
theorem State.checkAddr_ok {s : State} {e p e' : Nat} {a : Int} :
    s.checkAddr e p a = .ok e' ↔ 0 ≤ a ∧ a < s.addrLimit ∧ e' = s.grown e a := by
  unfold State.checkAddr State.grown
  split
  · simp; omega
  · split
    · simp; omega
    · simp only [Except.ok.injEq]
      constructor
      · intro h; exact ⟨by omega, by omega, h.symm⟩
      · intro h; exact h.2.2.symm

/-- The access check raises underflow on a negative address and out-of-capacity at or above the limit (20_memory R43). -/
theorem State.checkAddr_error {s : State} {e p : Nat} {a : Int} {t : Trap} :
    s.checkAddr e p a = .error t ↔
      (a < 0 ∧ t = ⟨.addressUnderflow, some p⟩) ∨ (0 ≤ a ∧ s.addrLimit ≤ a ∧ t = ⟨.outOfCapacity, some p⟩) := by
  unfold State.checkAddr
  split
  · simp only [Except.error.injEq]
    constructor
    · intro h; exact .inl ⟨by omega, h.symm⟩
    · rintro (h | h)
      · exact h.2.symm
      · omega
  · split
    · simp only [Except.error.injEq]
      constructor
      · intro h; exact .inr ⟨by omega, by omega, h.symm⟩
      · rintro (h | h)
        · omega
        · exact h.2.2.symm
    · simp; omega

/-- Growth never lowers the pending extent (20_memory R44). -/
theorem State.le_grown (s : State) (e : Nat) (a : Int) : e ≤ s.grown e a := by
  unfold State.grown; split <;> omega

/-- Under Grow the extent covers the address; under Fixed it stays (20_memory R44, R45). -/
theorem State.grown_eq (s : State) (e : Nat) {a : Int} (ha : 0 ≤ a) :
    s.grown e a = match s.cfg.memPolicy with
      | .grow => max e (a.toNat + 1)
      | .fixed => e := by
  unfold State.grown
  cases s.cfg.memPolicy
  · simp only [true_and]
    split <;> omega
  · simp

/-- A second check of the same address changes nothing: the repeat in `MemWrite` is idempotent (20_memory R47). -/
theorem State.grown_grown (s : State) (e : Nat) {a : Int} (ha : 0 ≤ a) :
    s.grown (s.grown e a) a = s.grown e a := by
  rw [State.grown_eq s _ ha, State.grown_eq s _ ha]
  cases s.cfg.memPolicy <;> simp

/-- A read answers exactly when its address check does, with the cell (20_memory R46). -/
theorem State.memRead_ok {s : State} {e p e' : Nat} {a : Int} {v : Cell} :
    s.memRead e p a = .ok (v, e') ↔ 0 ≤ a ∧ a < s.addrLimit ∧ v = s.mem.read a.toNat ∧ e' = s.grown e a := by
  unfold State.memRead
  cases h : s.checkAddr e p a with
  | error t =>
    simp only [reduceCtorEq, false_iff]
    rcases State.checkAddr_error.1 h with h | h <;> omega
  | ok e1 =>
    obtain ⟨h0, hl, rfl⟩ := State.checkAddr_ok.1 h
    simp [h0, hl, eq_comm]

/-- A write answers exactly when its address check does (20_memory R47). -/
theorem State.memWrite_ok {s : State} {e p e' : Nat} {a : Int} {v : Cell} {m : Memory} :
    s.memWrite e p a v = .ok (m, e') ↔
      0 ≤ a ∧ a < s.addrLimit ∧ m = s.mem.write a.toNat v ∧ e' = s.grown e a := by
  unfold State.memWrite
  cases h : s.checkAddr e p a with
  | error t =>
    simp only [reduceCtorEq, false_iff]
    rcases State.checkAddr_error.1 h with h | h <;> omega
  | ok e1 =>
    obtain ⟨h0, hl, rfl⟩ := State.checkAddr_ok.1 h
    simp [h0, hl, eq_comm]

/-- The literal fetch answers the literal exactly below the limit (20_memory R43). -/
theorem State.fetchLit_ok {s : State} {p : Nat} {o : Operand} {l : Cell} :
    s.fetchLit p o = .ok l ↔ s.pc + p < s.addrLimit ∧ l = o.lit := by
  unfold State.fetchLit
  split
  · simp; omega
  · simp [eq_comm]; omega

theorem State.fetchLit_error {s : State} {p : Nat} {o : Operand} {t : Trap} :
    s.fetchLit p o = .error t ↔ s.addrLimit ≤ s.pc + p ∧ t = ⟨.outOfCapacity, some p⟩ := by
  unfold State.fetchLit
  split
  · simp [eq_comm]; omega
  · simp; omega

/-- Everything a read operand can answer with: the value of its mode, and the pending extent its access leaves
(20_memory R50). -/
theorem State.readOperand_ok {s : State} {e p e' : Nat} {o : Operand} {v : Cell} :
    s.readOperand e p o = .ok (v, e') ↔ s.pc + p < s.addrLimit ∧
      ((o.mode = .position ∧ 0 ≤ o.lit.toInt ∧ o.lit.toInt < s.addrLimit ∧
          v = s.mem.read o.lit.toInt.toNat ∧ e' = s.grown e o.lit.toInt) ∨
        (o.mode = .immediate ∧ v = o.lit ∧ e' = e) ∨
        (o.mode = .relative ∧ 0 ≤ o.lit.toInt + s.rb.toInt ∧ o.lit.toInt + s.rb.toInt < s.addrLimit ∧
          v = s.mem.read (o.lit.toInt + s.rb.toInt).toNat ∧ e' = s.grown e (o.lit.toInt + s.rb.toInt))) := by
  unfold State.readOperand
  cases o.mode with
  | illegal d => simp
  | position =>
    cases hf : s.fetchLit p o with
    | error t => have := (State.fetchLit_error.1 hf).1; simp; omega
    | ok l => obtain ⟨h, rfl⟩ := State.fetchLit_ok.1 hf; simp [State.memRead_ok, h]
  | immediate =>
    cases hf : s.fetchLit p o with
    | error t => have := (State.fetchLit_error.1 hf).1; simp; omega
    | ok l => obtain ⟨h, rfl⟩ := State.fetchLit_ok.1 hf; simp [h, eq_comm]
  | relative =>
    cases hf : s.fetchLit p o with
    | error t => have := (State.fetchLit_error.1 hf).1; simp; omega
    | ok l => obtain ⟨h, rfl⟩ := State.fetchLit_ok.1 hf; simp [State.memRead_ok, h]

/-- Everything a write operand can answer with: the address of its mode, and the pending extent its check leaves
(20_memory R51). -/
theorem State.dstAddr_ok {s : State} {e p e' : Nat} {o : Operand} {a : Int} :
    s.dstAddr e p o = .ok (a, e') ↔ s.pc + p < s.addrLimit ∧ 0 ≤ a ∧ a < s.addrLimit ∧ e' = s.grown e a ∧
      ((o.mode = .position ∧ a = o.lit.toInt) ∨ (o.mode = .relative ∧ a = o.lit.toInt + s.rb.toInt)) := by
  have key : ∀ (b : Int), s.checkDst e p b = .ok (a, e') ↔ 0 ≤ a ∧ a < s.addrLimit ∧ e' = s.grown e a ∧ a = b := by
    intro b
    unfold State.checkDst
    cases h : s.checkAddr e p b with
    | error t =>
      simp only [reduceCtorEq, false_iff]
      rcases State.checkAddr_error.1 h with h | h <;> rintro ⟨_, _, _, rfl⟩ <;> omega
    | ok e1 =>
      obtain ⟨h0, hl, rfl⟩ := State.checkAddr_ok.1 h
      simp only [Except.ok.injEq, Prod.mk.injEq]
      constructor
      · rintro ⟨rfl, rfl⟩; exact ⟨h0, hl, rfl, rfl⟩
      · rintro ⟨_, _, rfl, rfl⟩; exact ⟨rfl, rfl⟩
  unfold State.dstAddr
  cases o.mode with
  | illegal d => simp
  | position =>
    cases hf : s.fetchLit p o with
    | error t => have := (State.fetchLit_error.1 hf).1; simp; omega
    | ok l => obtain ⟨h, rfl⟩ := State.fetchLit_ok.1 hf; simp [key, h]
  | immediate =>
    cases hf : s.fetchLit p o with
    | error t => simp
    | ok l => simp
  | relative =>
    cases hf : s.fetchLit p o with
    | error t => have := (State.fetchLit_error.1 hf).1; simp; omega
    | ok l => obtain ⟨h, rfl⟩ := State.fetchLit_ok.1 hf; simp [key, h]

/-- The write at an address `DstAddr` has answered never fails, and leaves the same pending extent (20_memory R47). -/
theorem State.memWrite_of_dstAddr {s : State} {e p e' : Nat} {o : Operand} {a : Int} (v : Cell)
    (h : s.dstAddr e p o = .ok (a, e')) : s.memWrite e' p a v = .ok (s.mem.write a.toNat v, e') := by
  obtain ⟨_, h0, hl, rfl, _⟩ := State.dstAddr_ok.1 h
  exact State.memWrite_ok.2 ⟨h0, hl, rfl, (State.grown_grown s e h0).symm⟩

/-- A cell made of an integer of INT64 reads as that integer (00_scope R10). -/
theorem Cell.toInt_ofInt {v : Int} (h : fits64 v) : (Cell.ofInt v).toInt = v :=
  BitVec.toInt_ofInt_eq_self (by decide) h.1 h.2

theorem Cell.fits64_toInt (v : Cell) : fits64 v.toInt := ⟨BitVec.le_toInt v, BitVec.toInt_lt⟩

/-- A result passes the check exactly when some cell holds it (40_alu R90). -/
theorem checkedResult_ok {r : Int} {v : Cell} : checkedResult r = .ok v ↔ v.toInt = r := by
  unfold checkedResult
  split
  · next h =>
    constructor
    · rintro h'; injection h' with h'; rw [← h', Cell.toInt_ofInt h]
    · intro hv
      have : Cell.ofInt r = v := BitVec.eq_of_toInt_eq (by rw [Cell.toInt_ofInt h, hv])
      rw [this]
  · next h =>
    simp only [reduceCtorEq, false_iff]
    rintro rfl
    exact h (Cell.fits64_toInt v)

theorem checkedResult_error {r : Int} {t : Trap} :
    checkedResult r = .error t ↔ ¬ fits64 r ∧ t = ⟨.arithmeticOverflow, none⟩ := by
  unfold checkedResult
  split
  · next h => exact ⟨fun h' => (by cases h'), fun h' => absurd h h'.1⟩
  · next h => exact ⟨fun h' => ⟨h, by injection h' with h'; exact h'.symm⟩, fun h' => by rw [h'.2]⟩

/-- How an instruction ends: with its effects, or with the fault entry alone (30_encoding R76, 60_exceptions R132). -/
theorem State.finish_next {s t : State} {op : Opcode} {r : Except Trap State} :
    s.finish op r = .next t ↔ r = .ok t ∨ ∃ tr, r = .error tr ∧ t = s.takeFault (s.recordAt op tr) := by
  cases r with
  | ok u => simp [State.finish]
  | error tr => simp [State.finish, eq_comm]

/-- An instruction that ends with `finish` always answers a next state. -/
theorem State.finish_answers (s : State) (op : Opcode) (r : Except Trap State) : ∃ t, s.finish op r = .next t := by
  cases r with
  | ok u => exact ⟨u, rfl⟩
  | error tr => exact ⟨_, rfl⟩

end Sys2Proof.Machine
end

