-- ==== Sys2Proof/Laws/Exec.lean ====
section
/-! SUPPORT. What each shared meaning does when it completes, and what a fetch can end with. -/

namespace Sys2Proof.Machine

/-- Everything an ALU instruction that completes does (40_alu R91 to R94). -/
theorem aluResult_ok {f : Int → Int → Int} {a b dst : Operand} {s t : State} :
    aluResult f a b dst s = .ok t ↔ ∃ x y e1 e2 d e3 r,
      s.readOperand s.ext 1 a = .ok (x, e1) ∧ s.readOperand e1 2 b = .ok (y, e2) ∧ s.dstAddr e2 3 dst = .ok (d, e3) ∧
        checkedResult (f x.toInt y.toInt) = .ok r ∧ t = (s.setMem (s.mem.write d.toNat r)).commit e3 (s.pc + 4) := by
  constructor
  · intro h
    unfold aluResult at h
    split at h
    · cases h
    · next x e1 hx =>
      split at h
      · cases h
      · next y e2 hy =>
        split at h
        · cases h
        · next d e3 hd =>
          split at h
          · cases h
          · next r hr =>
            rw [State.memWrite_of_dstAddr r hd] at h
            injection h with h
            exact ⟨x, y, e1, e2, d, e3, r, hx, hy, hd, hr, h.symm⟩
  · rintro ⟨x, y, e1, e2, d, e3, r, hx, hy, hd, hr, rfl⟩
    simp only [aluResult, hx, hy, hd, hr, State.memWrite_of_dstAddr r hd]

/-- Everything an IN that completes does (41_io R102). -/
theorem inpResult_ok {dst : Operand} {v : Cell} {rest : List Cell} {s t : State} :
    inpResult dst v rest s = .ok t ↔ ∃ d e, s.dstAddr s.ext 1 dst = .ok (d, e) ∧
      t = ((s.setInq rest).setMem (s.mem.write d.toNat v)).commit e (s.pc + 2) := by
  constructor
  · intro h
    unfold inpResult at h
    split at h
    · cases h
    · next d e hd =>
      rw [State.memWrite_of_dstAddr v hd] at h
      injection h with h
      exact ⟨d, e, hd, h.symm⟩
  · rintro ⟨d, e, hd, rfl⟩
    simp only [inpResult, hd, State.memWrite_of_dstAddr v hd]

/-- Everything a jump that completes does (42_control R110, R111). -/
theorem jumpResult_ok {taken : Int → Bool} {a target : Operand} {s t : State} :
    jumpResult taken a target s = .ok t ↔ ∃ x y e1 e2,
      s.readOperand s.ext 1 a = .ok (x, e1) ∧ s.readOperand e1 2 target = .ok (y, e2) ∧
        t = s.commit e2 (if taken x.toInt then y.toInt else s.pc + 3) := by
  constructor
  · intro h
    unfold jumpResult at h
    split at h
    · cases h
    · next x e1 hx =>
      split at h
      · cases h
      · next y e2 hy =>
        injection h with h
        exact ⟨x, y, e1, e2, hx, hy, h.symm⟩
  · rintro ⟨x, y, e1, e2, hx, hy, rfl⟩
    simp only [jumpResult, hx, hy]

/-- Everything a fetch can end with (30_encoding R74, steps 1 to 5). -/
theorem State.fetch_cases (s : State) :
    (s.pc < 0 ∧ s.fetch = .stop (s.takeFault s.underflowRecord)) ∨
    (0 ≤ s.pc ∧ s.ext ≤ s.pc ∧ s.fetch = .stop s.halt) ∨
    (0 ≤ s.pc ∧ s.pc < s.ext ∧ ∃ r, s.decodeAt s.pc.toNat = .error r ∧
      s.fetch = .stop (s.takeFault (s.rejectRecord r))) ∨
    (0 ≤ s.pc ∧ s.pc < s.ext ∧ ∃ i, s.decodeAt s.pc.toNat = .ok i ∧ s.fetch = .run i) := by
  unfold State.fetch
  by_cases h1 : s.pc < 0
  · exact .inl ⟨h1, by rw [if_pos h1]⟩
  · by_cases h2 : (s.ext : Int) ≤ s.pc
    · exact .inr (.inl ⟨by omega, h2, by rw [if_neg h1, if_pos h2]⟩)
    · cases h : s.decodeAt s.pc.toNat with
      | error r => exact .inr (.inr (.inl ⟨by omega, by omega, r, rfl, by rw [if_neg h1, if_neg h2]⟩))
      | ok i => exact .inr (.inr (.inr ⟨by omega, by omega, i, rfl, by rw [if_neg h1, if_neg h2]⟩))

/-- What a step is in each status (30_encoding R73). -/
theorem step_of_ready {s : State} (h : s.status = .ready) :
    step s = match s.fetch with
      | .stop t => .next t
      | .run i => exec i s := by
  cases hf : s.fetch <;> simp only [step, h, hf]

theorem step_of_halted {s : State} (h : s.status = .halted) : step s = .next s := by
  simp only [step, h]

theorem step_of_faulted {s : State} {f : FaultRecord} (h : s.status = .faulted f) : step s = .fault (.faulted f) := by
  simp only [step, h]

end Sys2Proof.Machine
end

