-- ==== Sys2Proof/Laws/PerInstr.lean ====
section
/-! SUPPORT. For every instruction: the decimal digits of its word are its opcode and its operands' modes, with no digit
above them (30_encoding R61, R62, R68). -/

namespace Sys2Proof.Laws.WordDigits

/-- The digit the word has for operand `p`: that operand's mode digit, 0 for an operand it has not. -/
def expected (i : Instr) (p : Nat) : Nat :=
  match i.operands[p - 1]? with
  | some o => o.mode.digit
  | none => 0

def Statement (i : Instr) : Prop :=
  i.word % 100 = i.op.number ∧ modeDigit i.word 1 = expected i 1 ∧ modeDigit i.word 2 = expected i 2 ∧
    modeDigit i.word 3 = expected i 3 ∧ i.word < 10 ^ (i.op.count + 2)

theorem three (n x y z : Nat) (hn : n < 100) (hx : x < 10) (hy : y < 10) (hz : z < 10) :
    let w := n + 100 * x + 1000 * y + 10000 * z
    w % 100 = n ∧ modeDigit w 1 = x ∧ modeDigit w 2 = y ∧ modeDigit w 3 = z ∧ w < 100000 := by
  simp only [modeDigit]
  refine ⟨?_, ?_, ?_, ?_, ?_⟩ <;> norm_num <;> omega

theorem two (n x y : Nat) (hn : n < 100) (hx : x < 10) (hy : y < 10) :
    let w := n + 100 * x + 1000 * y
    w % 100 = n ∧ modeDigit w 1 = x ∧ modeDigit w 2 = y ∧ modeDigit w 3 = 0 ∧ w < 10000 := by
  simp only [modeDigit]
  refine ⟨?_, ?_, ?_, ?_, ?_⟩ <;> norm_num <;> omega

theorem one (n x : Nat) (hn : n < 100) (hx : x < 10) :
    let w := n + 100 * x
    w % 100 = n ∧ modeDigit w 1 = x ∧ modeDigit w 2 = 0 ∧ modeDigit w 3 = 0 ∧ w < 1000 := by
  simp only [modeDigit]
  refine ⟨?_, ?_, ?_, ?_, ?_⟩ <;> norm_num <;> omega

theorem add (a b d : Operand) : Statement (.add a b d) := by
  simpa [Statement, expected, Instr.word, Instr.operands, Instr.op, Opcode.number, Opcode.count] using
    three 1 _ _ _ (by decide) a.mode.digit_lt b.mode.digit_lt d.mode.digit_lt
theorem mul (a b d : Operand) : Statement (.mul a b d) := by
  simpa [Statement, expected, Instr.word, Instr.operands, Instr.op, Opcode.number, Opcode.count] using
    three 2 _ _ _ (by decide) a.mode.digit_lt b.mode.digit_lt d.mode.digit_lt
theorem inp (d : Operand) : Statement (.inp d) := by
  simpa [Statement, expected, Instr.word, Instr.operands, Instr.op, Opcode.number, Opcode.count] using
    one 3 _ (by decide) d.mode.digit_lt
theorem out (a : Operand) : Statement (.out a) := by
  simpa [Statement, expected, Instr.word, Instr.operands, Instr.op, Opcode.number, Opcode.count] using
    one 4 _ (by decide) a.mode.digit_lt
theorem jt (a t : Operand) : Statement (.jt a t) := by
  simpa [Statement, expected, Instr.word, Instr.operands, Instr.op, Opcode.number, Opcode.count] using
    two 5 _ _ (by decide) a.mode.digit_lt t.mode.digit_lt
theorem jf (a t : Operand) : Statement (.jf a t) := by
  simpa [Statement, expected, Instr.word, Instr.operands, Instr.op, Opcode.number, Opcode.count] using
    two 6 _ _ (by decide) a.mode.digit_lt t.mode.digit_lt
theorem lt (a b d : Operand) : Statement (.lt a b d) := by
  simpa [Statement, expected, Instr.word, Instr.operands, Instr.op, Opcode.number, Opcode.count] using
    three 7 _ _ _ (by decide) a.mode.digit_lt b.mode.digit_lt d.mode.digit_lt
theorem eq (a b d : Operand) : Statement (.eq a b d) := by
  simpa [Statement, expected, Instr.word, Instr.operands, Instr.op, Opcode.number, Opcode.count] using
    three 8 _ _ _ (by decide) a.mode.digit_lt b.mode.digit_lt d.mode.digit_lt
theorem arb (a : Operand) : Statement (.arb a) := by
  simpa [Statement, expected, Instr.word, Instr.operands, Instr.op, Opcode.number, Opcode.count] using
    one 9 _ (by decide) a.mode.digit_lt
theorem hlt : Statement .hlt := by unfold Statement; decide

end Sys2Proof.Laws.WordDigits
end

