-- ==== Sys2Proof/Laws/Resolve.lean ====
section
/-! SUPPORT. An operand that resolves, and one that has a fault event: the terms of the claims against the model's own
operand operations. -/

namespace Sys2Proof.Machine

/-- The pending extent after an operand's own access, if it has one (20_memory R44). -/
def State.grownBy (s : State) (e : Nat) (o : Operand) : Nat :=
  match s.effectiveAddress o with
  | some a => s.grown e a
  | none => e

/-- A read operand that resolves answers its value (20_memory R50). -/
theorem State.readOperand_of_resolves {s : State} {e p : Nat} {o : Operand} (h : s.Resolves .read p o) :
    s.readOperand e p o = .ok (s.operandValue o, s.grownBy e o) := by
  obtain ⟨hm, hl, _, ha⟩ := h
  rw [State.readOperand_ok]
  refine ⟨hl, ?_⟩
  unfold State.operandValue State.grownBy
  unfold State.effectiveAddress at *
  cases ho : o.mode with
  | illegal d => simp [ho, Mode.legal] at hm
  | position => simp [ho] at ha ⊢; exact ⟨ha.1, ha.2⟩
  | immediate => simp
  | relative => simp [ho] at ha ⊢; exact ⟨ha.1, ha.2⟩

/-- A write operand that resolves answers its effective address (20_memory R51). -/
theorem State.dstAddr_of_resolves {s : State} {e p : Nat} {o : Operand} {a : Int} (h : s.Resolves .write p o)
    (ha : s.effectiveAddress o = some a) : s.dstAddr e p o = .ok (a, s.grownBy e o) := by
  obtain ⟨hm, hl, hi, hb⟩ := h
  obtain ⟨h0, h1⟩ := hb a ha
  rw [State.dstAddr_ok]
  refine ⟨hl, h0, h1, by simp [State.grownBy, ha], ?_⟩
  unfold State.effectiveAddress at ha
  cases ho : o.mode with
  | illegal d => simp [ho, Mode.legal] at hm
  | position => simp [ho] at ha ⊢; exact ha.symm
  | immediate => exact absurd ho (hi rfl)
  | relative => simp [ho] at ha ⊢; exact ha.symm

theorem State.Resolves.nonneg {s : State} {acc : Access} {p : Nat} {o : Operand} (h : s.Resolves acc p o) :
    ∀ a, s.effectiveAddress o = some a → 0 ≤ a :=
  fun a ha => (h.2.2.2 a ha).1

/-- A write operand that resolves has an effective address. -/
theorem State.write_effectiveAddress {s : State} {p : Nat} {o : Operand} (h : s.Resolves .write p o) :
    ∃ a, s.effectiveAddress o = some a := by
  obtain ⟨hm, hl, hi, hb⟩ := h
  unfold State.effectiveAddress
  cases ho : o.mode with
  | illegal d => simp [ho, Mode.legal] at hm
  | position => exact ⟨_, rfl⟩
  | immediate => exact absurd ho (hi rfl)
  | relative => exact ⟨_, rfl⟩

/-- The pending extent after the accesses of several operands, in order. -/
def State.growFrom (s : State) : Nat → List Operand → Nat
  | e, [] => e
  | e, o :: os => s.growFrom (s.grownBy e o) os

/-- The extent the claims compute is the pending extent the operands leave (20_memory R44, R45). -/
theorem State.extentAfter_eq {s : State} {os : List Operand}
    (h : ∀ o ∈ os, ∀ a, s.effectiveAddress o = some a → 0 ≤ a) : s.extentAfter os = s.growFrom s.ext os := by
  unfold State.extentAfter
  cases hp : s.cfg.memPolicy with
  | grow =>
    simp only
    generalize s.ext = e
    induction os generalizing e with
    | nil => rfl
    | cons o os ih =>
      have ih := ih (fun o ho => h o (by simp [ho]))
      have h0 := h o (by simp)
      simp only [State.growFrom]
      rw [List.filterMap_cons]
      unfold State.grownBy
      cases hea : s.effectiveAddress o with
      | none => simpa using ih e
      | some a =>
        simp only [List.foldl_cons]
        rw [State.grown_eq s e (h0 a hea), hp]
        exact ih _
  | fixed =>
    simp only
    generalize s.ext = e
    induction os generalizing e with
    | nil => rfl
    | cons o os ih =>
      have ih := ih (fun o ho => h o (by simp [ho]))
      have h0 := h o (by simp)
      simp only [State.growFrom]
      unfold State.grownBy
      cases hea : s.effectiveAddress o with
      | none => simpa using ih e
      | some a =>
        simp only
        rw [State.grown_eq s e (h0 a hea), hp]
        exact ih _

@[simp] theorem firstEvent_nil : firstEvent [] = none := rfl

theorem firstEvent_cons (c : Bool) (t : Trap) (l : List (Bool × Trap)) :
    firstEvent ((c, t) :: l) = if c = true then some t else firstEvent l := by
  cases c <;> rfl

theorem firstEvent_append (l m : List (Bool × Trap)) : firstEvent (l ++ m) = (firstEvent l).or (firstEvent m) := by
  unfold firstEvent
  rw [List.find?_append]
  cases List.find? (fun e => e.1) l <;> simp

/-- An operand has no fault event exactly when it resolves (60_exceptions R135). -/
theorem State.operandEvents_none {s : State} {acc : Access} {p : Nat} {o : Operand} :
    firstEvent (s.operandEvents acc p o) = none ↔ s.Resolves acc p o := by
  unfold State.operandEvents State.Resolves
  simp only [firstEvent_cons, firstEvent_nil]
  cases acc <;> cases hm : o.mode <;> cases he : s.effectiveAddress o <;> simp [Mode.legal]
  all_goals (split_ifs <;> simp <;> omega)

/-- The address events of an operand are what the access check raises (20_memory R43). -/
theorem State.checkAddr_of_event {s : State} {e p : Nat} {a : Int} {t : Trap}
    (h : (if a < 0 then some (⟨.addressUnderflow, some p⟩ : Trap)
      else if (s.addrLimit : Int) ≤ a then some ⟨.outOfCapacity, some p⟩ else none) = some t) :
    s.checkAddr e p a = .error t := by
  rw [State.checkAddr_error]
  split at h
  · injection h with h; exact .inl ⟨by assumption, h.symm⟩
  · split at h
    · injection h with h; exact .inr ⟨by omega, by assumption, h.symm⟩
    · cases h

/-- A read operand raises its first fault event (20_memory R50, 60_exceptions R135). -/
theorem State.readOperand_of_event {s : State} {e p : Nat} {o : Operand} {t : Trap}
    (h : firstEvent (s.operandEvents .read p o) = some t) : s.readOperand e p o = .error t := by
  unfold State.operandEvents State.effectiveAddress at h
  simp only [firstEvent_cons, firstEvent_nil] at h
  unfold State.readOperand State.fetchLit
  cases hm : o.mode <;> simp [hm, Mode.legal] at h ⊢
  case illegal => exact h
  all_goals
    by_cases hl : (s.addrLimit : Int) ≤ s.pc + p
    · simp [hl] at h ⊢; exact h
    · simp [hl] at h ⊢
      try
        unfold State.memRead
        rw [State.checkAddr_of_event h]

/-- A write operand raises its first fault event (20_memory R51, 60_exceptions R135). -/
theorem State.dstAddr_of_event {s : State} {e p : Nat} {o : Operand} {t : Trap}
    (h : firstEvent (s.operandEvents .write p o) = some t) : s.dstAddr e p o = .error t := by
  unfold State.operandEvents State.effectiveAddress at h
  simp only [firstEvent_cons, firstEvent_nil] at h
  unfold State.dstAddr State.fetchLit
  cases hm : o.mode <;> simp [hm, Mode.legal] at h ⊢
  · by_cases hl : (s.addrLimit : Int) ≤ s.pc + p
    · simp [hl] at h ⊢; exact h
    · simp [hl] at h ⊢
      unfold State.checkDst
      rw [State.checkAddr_of_event h]
  · by_cases hl : (s.addrLimit : Int) ≤ s.pc + p <;> simp [hl] at h ⊢ <;> exact h
  · by_cases hl : (s.addrLimit : Int) ≤ s.pc + p
    · simp [hl] at h ⊢; exact h
    · simp [hl] at h ⊢
      unfold State.checkDst
      rw [State.checkAddr_of_event h]
  · exact h

/-- The extent never falls (10_state R24). -/
theorem State.le_extentAfter (s : State) (os : List Operand) : s.ext ≤ s.extentAfter os := by
  unfold State.extentAfter
  cases s.cfg.memPolicy with
  | fixed => exact Nat.le_refl _
  | grow =>
    simp only
    generalize s.ext = e
    induction List.filterMap s.effectiveAddress os generalizing e with
    | nil => exact Nat.le_refl _
    | cons a l ih => exact Nat.le_trans (Nat.le_max_left _ _) (ih _)

/-- Under Fixed the extent never changes (20_memory R45). -/
theorem State.extentAfter_fixed {s : State} (h : s.cfg.memPolicy = .fixed) (os : List Operand) :
    s.extentAfter os = s.ext := by
  unfold State.extentAfter; rw [h]

/-- Under Grow the extent covers every address touched (20_memory R44). -/
theorem State.extentAfter_covers {s : State} (h : s.cfg.memPolicy = .grow) {os : List Operand} {o : Operand} {a : Int}
    (ho : o ∈ os) (ha : s.effectiveAddress o = some a) : a.toNat < s.extentAfter os := by
  unfold State.extentAfter
  rw [h]; simp only
  have hm : a ∈ List.filterMap s.effectiveAddress os := List.mem_filterMap.2 ⟨o, ho, ha⟩
  have mono : ∀ (l : List Int) (e : Nat), e ≤ l.foldl (fun e a => max e (a.toNat + 1)) e := by
    intro l; induction l with
    | nil => intro e; exact Nat.le_refl _
    | cons a l ih => intro e; exact Nat.le_trans (Nat.le_max_left _ _) (ih _)
  generalize s.ext = e
  generalize List.filterMap s.effectiveAddress os = l at hm ⊢
  induction l generalizing e with
  | nil => cases hm
  | cons b l ih =>
    simp only [List.foldl_cons]
    rcases List.mem_cons.1 hm with rfl | hm
    · have := mono l (max e (a.toNat + 1)); omega
    · exact ih _ hm

/-- Under the invariant no address of 2^63 or more is reachable (20_memory R43). -/
theorem State.Inv.addrLimit_le {s : State} (h : s.Inv) : s.addrLimit ≤ 2 ^ 63 := by
  cases hp : s.cfg.memPolicy with
  | grow => exact State.addrLimit_grow_le hp
  | fixed => rw [State.addrLimit_fixed hp]; exact h.fixedExt hp

end Sys2Proof.Machine
end

