-- ==== Sys2Proof/Laws/Transactions.lean ====
section
/-! SUPPORT. What construction, a poke and a suspension are, and one induction for everything that steps and transactions
keep. -/

namespace Sys2Proof.Machine

/-- The state a fuelled resume leaves; the given one where a step was refused. -/
def ResumeResult.state : ResumeResult → State → State
  | .returned _ _ t, _ => t
  | .outOfFuel t, _ => t
  | .refused _, s => s

@[simp] theorem stepsFrom_zero (s : State) : stepsFrom 0 s = [] := rfl

/-- A step that answers goes on from its next state. -/
theorem stepsFrom_next {s t : State} (n : Nat) (h : step s = .next t) : stepsFrom (n + 1) s = s :: stepsFrom n t := by
  simp only [stepsFrom, h]

/-- A relation that is reflexive and transitive, and that steps and emptied queues keep, holds across a resume's loop. -/
theorem resumeLoop_rel {P : State → State → Prop} (refl : ∀ s, P s s) (trans : ∀ s t u, P s t → P t u → P s u)
    (hstep : ∀ s t, step s = .next t → P s t) (hq : ∀ s q, P s (s.setOutq q)) (fuel : Nat) (s s0 : State)
    (h0 : P s0 s) : P s0 ((resumeLoop fuel s).state s0) := by
  induction fuel generalizing s with
  | zero => exact h0
  | succ k ih =>
    unfold resumeLoop
    cases h : step s with
    | next t =>
      simp only
      cases stopReason s t with
      | some r => exact trans _ _ _ h0 (trans _ _ _ (hstep _ _ h) (hq _ _))
      | none => exact ih t (trans _ _ _ h0 (hstep _ _ h))
    | fault f => cases f; exact trans _ _ _ h0 (hq _ _)
    | refused r => exact refl _

/-- Everything a poke that is accepted does (60_exceptions R144). -/
theorem State.poke_some {s t : State} {a : Int} {v : Cell} (h : s.poke a v = some t) :
    0 ≤ a ∧ a < s.addrLimit ∧ t = (s.setMem (s.mem.write a.toNat v)).setExt
      (match s.cfg.memPolicy with
      | .grow => max s.ext (a.toNat + 1)
      | .fixed => s.ext) := by
  unfold State.poke at h
  split at h
  · next hc => injection h with h; exact ⟨hc.1, hc.2, h.symm⟩
  · cases h

/-- A relation that is reflexive and transitive, and that steps, queue changes and pokes keep, holds across every
transaction. -/
theorem State.transact_rel {P : State → State → Prop} (refl : ∀ s, P s s)
    (trans : ∀ s t u, P s t → P t u → P s u) (hstep : ∀ s t, step s = .next t → P s t)
    (hq : ∀ s q, P s (s.setOutq q)) (hi : ∀ s q, P s (s.setInq q))
    (hp : ∀ s a v t, s.poke a v = some t → P s t) (s : State) (fuel : Nat) (tx : Transaction) :
    P s (s.transact fuel tx).2 := by
  cases tx with
  | pushInput v => exact hi _ _
  | isHalted => exact refl _
  | status => exact refl _
  | peek a => simp only [State.transact]; cases h : s.peek a <;> exact refl _
  | poke a v =>
    simp only [State.transact]
    cases h : s.poke a v with
    | none => exact refl _
    | some t => exact hp _ _ _ _ h
  | resume xs =>
    have : P s ((s.resume fuel xs).state s) := by
      unfold State.resume
      split
      · exact refl _
      · exact refl _
      · exact resumeLoop_rel refl trans hstep hq _ _ _ (hi _ _)
    simp only [State.transact]
    cases h : s.resume fuel xs <;> rw [h] at this <;> exact this

/-- Everything a construction that is not refused gives (70_reset R170). -/
theorem construct_some {c : Config} {program : List Int} {input : List Cell} {s : State}
    (h : construct c program input = some s) : c.acceptable = true ∧ (∀ v ∈ program, fits64 v) ∧
      s = { cfg := c, mem := Memory.writeList [] 0 (program.map Cell.ofInt)
            ext := Config.initialExtent c program.length, pc := 0, rb := 0, status := .ready, inq := input, outq := [] } := by
  unfold construct at h
  split at h
  · next hc => injection h with h; exact ⟨hc.1, hc.2, h.symm⟩
  · cases h

/-- A state suspends exactly when it fetches an IN and its queue is empty (30_encoding R74 step 6). -/
theorem State.suspends_iff {s : State} :
    s.suspends = true ↔ s.Fetches ∧ s.inq = [] ∧ ∃ d, s.decodeAt s.pc.toNat = .ok (.inp d) := by
  unfold State.suspends State.Fetches
  cases hs : s.status with
  | faulted f => simp
  | halted => simp
  | ready =>
    rcases s.fetch_cases with ⟨h1, h2⟩ | ⟨h1, _, h2⟩ | ⟨h1, _, r, hr, h2⟩ | ⟨h1, h3, i, hd, h2⟩ <;> rw [h2]
    · simp; omega
    · simp; omega
    · simp [hr]
    · cases hq : s.inq <;> cases i <;> simp [hd, h1, h3]

/-- Everything a step that answers a next state does: it rests on a halted machine, stops at the fetch, or runs the
decoded instruction (30_encoding R73, R74). -/
theorem step_cases {s t : State} (h : step s = .next t) :
    (s.status = .halted ∧ t = s) ∨
    (s.status = .ready ∧ s.pc < 0 ∧ t = s.takeFault s.underflowRecord) ∨
    (s.status = .ready ∧ 0 ≤ s.pc ∧ s.ext ≤ s.pc ∧ t = s.halt) ∨
    (s.Fetches ∧ ∃ r, s.decodeAt s.pc.toNat = .error r ∧ t = s.takeFault (s.rejectRecord r)) ∨
    (s.Fetches ∧ ∃ i, s.decodeAt s.pc.toNat = .ok i ∧ exec i s = .next t) := by
  cases hs : s.status with
  | faulted f => rw [step_of_faulted hs] at h; cases h
  | halted => rw [step_of_halted hs] at h; injection h with h; exact .inl ⟨rfl, h.symm⟩
  | ready =>
    rw [step_of_ready hs] at h
    rcases s.fetch_cases with ⟨h1, h2⟩ | ⟨h1, h3, h2⟩ | ⟨h1, h3, r, hr, h2⟩ | ⟨h1, h3, i, hd, h2⟩ <;>
      rw [h2] at h <;> simp only at h
    · injection h with h; exact .inr (.inl ⟨rfl, h1, h.symm⟩)
    · injection h with h; exact .inr (.inr (.inl ⟨rfl, h1, h3, h.symm⟩))
    · injection h with h; exact .inr (.inr (.inr (.inl ⟨⟨hs, h1, h3⟩, r, hr, h.symm⟩)))
    · exact .inr (.inr (.inr (.inr ⟨⟨hs, h1, h3⟩, i, hd, h⟩)))

end Sys2Proof.Machine
end

