-- ==== Sys2Proof/Machine/Assembly.lean ====
section
/-! DEFINITION. The assembler syntax of 30_encoding R71. It is notation: the integer encoding is normative (92 D24). -/

namespace Sys2Proof.Machine

/-- An item of an assembly program: an instruction, or `DATA v`, which emits one cell (30_encoding R71). -/
inductive AsmItem where
  | instr (i : Instr)
  | data (v : Cell)
deriving DecidableEq, Repr

/-- The cells an item emits (30_encoding R71). -/
def AsmItem.cells : AsmItem → List Cell
  | .instr i => encode i
  | .data v => [v]

/-- The cells of an assembly program, from address 0 (30_encoding R71). -/
def assemble (items : List AsmItem) : List Cell := items.flatMap AsmItem.cells

/-- `[n]`, `#n`, `[rb+n]` or `[rb-n]`; an illegal mode has no form (30_encoding R71). -/
def operandText (o : Operand) : Option String :=
  match o.mode with
  | .position => some ("[" ++ toString o.lit.toInt ++ "]")
  | .immediate => some ("#" ++ toString o.lit.toInt)
  | .relative => some ("[rb" ++ (if o.lit.toInt < 0 then "" else "+") ++ toString o.lit.toInt ++ "]")
  | .illegal _ => none

/-- The mnemonic of an opcode (00_scope R16). -/
def mnemonic : Opcode → String
  | .add => "ADD"
  | .mul => "MUL"
  | .inp => "IN"
  | .out => "OUT"
  | .jt => "JT"
  | .jf => "JF"
  | .lt => "LT"
  | .eq => "EQ"
  | .arb => "ARB"
  | .hlt => "HLT"

/-- An item in the assembler syntax (30_encoding R71). -/
def AsmItem.text : AsmItem → Option String
  | .data v => some ("DATA " ++ toString v.toInt)
  | .instr i =>
    match i.operands.mapM operandText with
    | none => none
    | some [] => some (mnemonic i.op)
    | some ts => some (mnemonic i.op ++ " " ++ String.intercalate ", " ts)

end Sys2Proof.Machine
end

