-- ==== Sys2Proof/Tests/Slice0.lean ====
section
/-! SUPPORT. Tests: the WellFormed smoke, decoding, one step per instruction, and a witness for every statement that has
hypotheses. The expected results are those of the rules named, or of the vectors of 95_test_vectors (ids in brackets). -/

namespace Sys2Proof.Tests.Slice0

open Sys2Proof Sys2Proof.Machine

/-- The largest and the smallest integer of INT64. -/
def maxInt : Int := 2 ^ 63 - 1
def minInt : Int := -2 ^ 63

/-- A constructed machine under the default configuration. -/
def boot (program input : List Int) : State :=
  (construct Config.default program (input.map Cell.ofInt)).getD State.reset

/-- The same with a preallocated buffer of `cap` cells. -/
def bootFixed (cap : Nat) (program input : List Int) : State :=
  (construct { memPolicy := .fixed, cap := some cap, extraDigits := .ignore } program (input.map Cell.ofInt)).getD State.reset

/-- The same with dynamic growth up to `cap` cells. -/
def bootCapped (cap : Nat) (program input : List Int) : State :=
  (construct { memPolicy := .grow, cap := some cap, extraDigits := .ignore } program (input.map Cell.ofInt)).getD State.reset

/-- The same with `EXTRA_MODE_DIGITS = Fault`. -/
def bootStrict (program input : List Int) : State :=
  (construct { memPolicy := .grow, cap := none, extraDigits := .fault } program (input.map Cell.ofInt)).getD State.reset

/-- The next state of an outcome; the given one where it is none. -/
def nextOr (s : State) : Host.Outcome State Fault Refusal → State
  | .next t => t
  | _ => s

/-- The state after one step. -/
def after (s : State) : State := nextOr s (step s)

/-- Operands in the three modes. -/
def at' (v : Int) : Operand := ⟨.position, Cell.ofInt v⟩
def im (v : Int) : Operand := ⟨.immediate, Cell.ofInt v⟩
def rl (v : Int) : Operand := ⟨.relative, Cell.ofInt v⟩
/-- An operand whose mode digit is 9. -/
def bad (v : Int) : Operand := ⟨.illegal 6, Cell.ofInt v⟩

/-! ### WellFormed: one ill-formed term for each check (30_encoding R63, R67) -/

theorem test_wf_mode_digit : (Instr.out (bad 0)).wellFormed = false := by decide
theorem test_wf_add : (Instr.add (bad 0) (im 0) (at' 0)).wellFormed = false ∧
    (Instr.add (im 0) (bad 0) (at' 0)).wellFormed = false ∧ (Instr.add (im 0) (im 0) (im 0)).wellFormed = false ∧
    (Instr.add (im 0) (im 0) (bad 0)).wellFormed = false ∧ (Instr.add (im 0) (at' 0) (rl 0)).wellFormed = true := by
  decide
theorem test_wf_mul : (Instr.mul (bad 0) (im 0) (at' 0)).wellFormed = false ∧
    (Instr.mul (im 0) (bad 0) (at' 0)).wellFormed = false ∧ (Instr.mul (im 0) (im 0) (im 0)).wellFormed = false := by decide
theorem test_wf_lt : (Instr.lt (bad 0) (im 0) (at' 0)).wellFormed = false ∧
    (Instr.lt (im 0) (bad 0) (at' 0)).wellFormed = false ∧ (Instr.lt (im 0) (im 0) (im 0)).wellFormed = false := by decide
theorem test_wf_eq : (Instr.eq (bad 0) (im 0) (at' 0)).wellFormed = false ∧
    (Instr.eq (im 0) (bad 0) (at' 0)).wellFormed = false ∧ (Instr.eq (im 0) (im 0) (im 0)).wellFormed = false := by decide
theorem test_wf_inp : (Instr.inp (im 0)).wellFormed = false ∧ (Instr.inp (bad 0)).wellFormed = false := by decide
theorem test_wf_jt : (Instr.jt (bad 0) (im 0)).wellFormed = false ∧ (Instr.jt (im 0) (bad 0)).wellFormed = false := by decide
theorem test_wf_jf : (Instr.jf (bad 0) (im 0)).wellFormed = false ∧ (Instr.jf (im 0) (bad 0)).wellFormed = false := by decide
theorem test_wf_arb : (Instr.arb (bad 0)).wellFormed = false ∧ (Instr.arb (im 0)).wellFormed = true := by decide
theorem test_wf_hlt : Instr.hlt.wellFormed = true := by decide

/-! ### Decoding: words written out as `C B A O O` digits (30_encoding R61 to R67) -/

theorem test_decode_add : decode .fault 21001 2 3 4 = .ok (.add (at' 2) (im 3) (rl 4)) := by rfl
theorem test_decode_mul : decode .fault 102 2 3 4 = .ok (.mul (im 2) (at' 3) (at' 4)) := by rfl
theorem test_decode_inp : decode .fault 203 2 3 4 = .ok (.inp (rl 2)) := by rfl
theorem test_decode_out : decode .fault 104 (-9) 3 4 = .ok (.out (im (-9))) := by rfl
theorem test_decode_jt : decode .fault 1205 2 3 4 = .ok (.jt (rl 2) (im 3)) := by rfl
theorem test_decode_jf : decode .fault 2106 2 3 4 = .ok (.jf (im 2) (rl 3)) := by rfl
theorem test_decode_lt : decode .fault 22207 2 3 4 = .ok (.lt (rl 2) (rl 3) (rl 4)) := by rfl
theorem test_decode_eq : decode .fault 1108 2 3 4 = .ok (.eq (im 2) (im 3) (at' 4)) := by rfl
theorem test_decode_arb : decode .fault 209 3 0 0 = .ok (.arb (rl 3)) := by rfl
theorem test_decode_hlt : decode .fault 99 2 3 4 = .ok .hlt := by rfl

/-- A mode digit 3 to 9 is kept, for the fault that execution raises (30_encoding R63, R69). -/
theorem test_decode_illegal_mode : decode .fault 94104 2 3 4 = .error (.extraDigits .out) ∧
    decode .fault 904 2 3 4 = .ok (.out ⟨.illegal 6, 2⟩) ∧ decode .fault 304 2 3 4 = .ok (.out ⟨.illegal 0, 2⟩) := by
  exact ⟨rfl, rfl, rfl⟩
/-- Words that are no instruction (30_encoding R69). -/
theorem test_decode_rejects : decode .ignore (-1) 0 0 0 = .error .negativeWord ∧
    decode .ignore 0 0 0 0 = .error (.unsupportedOpcode 0) ∧ decode .ignore 10 0 0 0 = .error (.unsupportedOpcode 10) ∧
    decode .ignore 1150 0 0 0 = .error (.unsupportedOpcode 50) ∧ decode .ignore 98 0 0 0 = .error (.unsupportedOpcode 98) := by
  exact ⟨rfl, rfl, rfl, rfl, rfl⟩
/-- `10099` is HLT and `101101` is ADD with modes 1, 1, 0 under Ignore; under Fault both are rejected (30_encoding R64). -/
theorem test_decode_extra_digits : decode .ignore 10099 0 0 0 = .ok .hlt ∧
    decode .ignore 101101 2 3 4 = .ok (.add (im 2) (im 3) (at' 4)) ∧
    decode .fault 10099 0 0 0 = .error (.extraDigits .hlt) ∧ decode .fault 101101 2 3 4 = .error (.extraDigits .add) := by
  exact ⟨rfl, rfl, rfl, rfl⟩
/-- `ADD #100, #-1, [4]` encodes as `1101, 100, -1, 4` (30_encoding R71). -/
theorem test_encode_add : encode (.add (im 100) (im (-1)) (at' 4)) = [1101, 100, -1, 4] := by decide
theorem test_assemble : assemble [.instr (.inp (at' 3)), .instr .hlt, .data 0] = [3, 3, 99, 0] := by decide
/-- The words of the opcode table, numbered as the table numbers them. -/
theorem test_table_words : decodeTableWord 64 1101 = some (.add (im 0) (im 0) (at' 0)) ∧
    decodeTableWord 128 (109 + 2 ^ 64 * 5) = some (.arb (im 5)) ∧ decodeTableWord 64 99 = some .hlt ∧
    decodeTableWord 64 50 = none := by
  exact ⟨rfl, rfl, rfl, rfl⟩

/-! ### One step of each instruction -/

/-- [A1] -/
theorem test_add : (after (boot [1101, -3, 5, 5, 99, 0] [])).mem.read 5 = 2 ∧
    (after (boot [1101, -3, 5, 5, 99, 0] [])).pc = 4 := by decide
/-- [A3] -/
theorem test_add_overflow : (after (boot [1101, maxInt, 1, 5, 99, 0] [])).status =
    .faulted ⟨.arithmeticOverflow, 0, some 1101, some 1, none⟩ := by decide
/-- [A11] -/
theorem test_mul : ((after (boot [1102, -2147483648, 4294967296, 5, 99, 0] [])).mem.read 5).toInt = minInt := by decide
/-- [A10] -/
theorem test_mul_overflow : (after (boot [1102, 3037000500, 3037000500, 5, 99, 0] [])).status =
    .faulted ⟨.arithmeticOverflow, 0, some 1102, some 2, none⟩ := by decide
/-- [A13] -/
theorem test_lt_signed : (after (boot [1107, -1, 0, 5, 99, 7] [])).mem.read 5 = 1 := by decide
/-- [A16] -/
theorem test_lt_reversed : (after (boot [1107, maxInt, minInt, 5, 99, 7] [])).mem.read 5 = 0 := by decide
/-- [A18] -/
theorem test_eq_false : (after (boot [1108, 5, -5, 5, 99, 7] [])).mem.read 5 = 0 := by decide
/-- [A24] -/
theorem test_eq_self : (after (boot [8, 0, 0, 0, 99] [])).mem.read 0 = 1 ∧
    (after (boot [8, 0, 0, 0, 99] [])).pc = 4 := by decide
/-- [I2] -/
theorem test_inp : (after (boot [3, 3, 99, 0] [42])).mem.read 3 = 42 ∧ (after (boot [3, 3, 99, 0] [42])).inq = [] := by
  decide
/-- [I3] -/
theorem test_inp_immediate : (after (boot [103, 3, 99, 0] [42])).status =
    .faulted ⟨.invalidDestination, 0, some 103, some 3, some 1⟩ ∧
    (after (boot [103, 3, 99, 0] [42])).inq = [42] := by decide
/-- [O1] -/
theorem test_out : (after (boot [104, -9, 99] [])).outq = [-9] ∧ (after (boot [104, -9, 99] [])).pc = 2 := by decide
/-- 60_exceptions R135: of the first operand's negative address and its bad mode, the mode comes first. -/
theorem test_out_bad_mode : (after (boot [304, -1, 99] [])).status =
    .faulted ⟨.invalidMode, 0, some 304, some 4, some 1⟩ := by decide
/-- 42_control R110, its example. -/
theorem test_jt : (after (boot [1105, 1, 7] [])).pc = 7 ∧ (after (boot [1105, 0, 7] [])).pc = 3 := by decide
/-- 42_control R110: a bad target faults even when the jump is not taken. -/
theorem test_jt_bad_target : (after (boot [105, 0, -1] [])).status =
    .faulted ⟨.addressUnderflow, 0, some 105, some 5, some 2⟩ := by decide
/-- 42_control R111: 0 is taken, -1 is not. -/
theorem test_jf : (after (boot [1106, 0, -4] [])).pc = -4 ∧ (after (boot [1106, -1, 7] [])).pc = 3 := by decide
/-- 43_base_halt R120: `ARB #-5` from 0 gives -5. -/
theorem test_arb : (after (boot [109, -5] [])).rb = -5 ∧ (after (boot [109, -5] [])).pc = 2 := by decide
/-- 43_base_halt R120: `rb = 2^63-1` then `ARB #1` faults. -/
theorem test_arb_overflow : (after (after (boot [109, maxInt, 109, 1] []))).status =
    .faulted ⟨.arithmeticOverflow, 2, some 109, some 9, none⟩ := by decide
/-- 43_base_halt R121, its example. -/
theorem test_hlt : (after (boot [99] [])).status = .halted ∧ (after (boot [99] [])).pc = 0 := by decide

/-- [A22] A negative relative destination. -/
theorem test_relative_underflow : (after (after (boot [109, -3, 21101, 1, 1, 0, 99] []))).status =
    .faulted ⟨.addressUnderflow, 2, some 21101, some 1, some 3⟩ := by decide
/-- [A23] Reads beyond the program give 0 and grow the extent. -/
theorem test_growth : (after (boot [1, 100, 101, 7, 99, 0, 0, 9] [])).ext = 102 ∧
    (after (boot [1, 100, 101, 7, 99, 0, 0, 9] [])).mem.read 7 = 0 := by decide

/-! ### Memory and the load text -/

theorem test_memory_form : (boot [0, 7, 0] []).mem = [(1, 7)] ∧ ((boot [0, 7, 0] []).mem.write 1 0) = [] := by decide
theorem test_load_text : parseProgram ['\n', '1', ',', '-', '2', ' '] = some [1, -2] ∧
    parseProgram ['1', ',', ',', '2'] = none ∧ parseProgram ['+', '1'] = none ∧ parseProgram [' '] = some [] := by decide

/-! ### Witnesses: every statement with hypotheses has concrete states and operands that meet them all -/

/-- An operand resolves when it has no fault event. -/
theorem resolves_of {s : State} {acc : Access} {p : Nat} {o : Operand}
    (h : firstEvent (s.operandEvents acc p o) = none) : s.Resolves acc p o := State.operandEvents_none.1 h

/-- A booted machine of the default configuration has the invariant. -/
theorem inv_boot (program : List Int) (input : List Cell) (s : State)
    (h : construct Config.default program input = some s) : s.Inv := by
  obtain ⟨_, _, rfl⟩ := construct_some h
  refine ⟨Memory.wf_writeList rfl _ _, ?_, by simp, by simp, by simp [Config.default], by simp, by simp⟩
  exact Memory.writeList_lt _ _ _ (by simp [Config.initialExtent, Config.default]) (by simp)

theorem witness_EncodeOfDecodeReturnsCells :
    decodeCells .fault [1101, 100, -1, 4, 7] = .ok (.add (im 100) (im (-1)) (at' 4), [7]) := by rfl
theorem witness_OperandModesAreWordDigits : decode .ignore 21001 2 3 4 = .ok (.add (at' 2) (im 3) (rl 4)) ∧
    (Instr.add (at' 2) (im 3) (rl 4)).operands[0]? = some (at' 2) ∧
    (Instr.add (at' 2) (im 3) (rl 4)).operands[2]? = some (rl 4) := by
  exact ⟨rfl, rfl, rfl⟩
theorem witness_WordsThatDecodeAlike : decode .ignore 99 0 0 0 = .ok .hlt ∧
    (0 : Int) ≤ (10099 : Cell).toInt ∧ (10099 : Cell).toInt % 10 ^ 2 = (99 : Cell).toInt % 10 ^ 2 := by
  exact ⟨rfl, by decide, by decide⟩

theorem fetches_boot : (boot [1101, -3, 5, 5, 99, 0] []).Fetches := ⟨by decide, by decide, by decide⟩
theorem witness_StepRunsTheDecodedInstruction : (boot [1101, -3, 5, 5, 99, 0] []).Fetches ∧
    (boot [1101, -3, 5, 5, 99, 0] []).decodeAt 0 = .ok (.add (im (-3)) (im 5) (at' 5)) := ⟨fetches_boot, by rfl⟩
theorem witness_NegativePcFaultsAtFetch : ((boot [99] []).setPc (-1)).status = .ready ∧
    ((boot [99] []).setPc (-1)).pc < 0 := by decide
/-- At the boundary: the pc is the extent. -/
theorem witness_ImplicitHaltActsAsHlt : State.reset.status = .ready ∧ 0 ≤ State.reset.pc ∧
    (State.reset.ext : Int) ≤ State.reset.pc ∧ ((boot [99] []).setPc 1).ext = 1 := by decide
/-- One word for each clause; the opcodes at the edges of the map's gaps. -/
theorem witness_UnsupportedWordsFault :
    ((boot [-1] []).Fetches ∧ (boot [-1] []).mem.read 0 = -1 ∧ (-1 : Cell).toInt < 0) ∧
    ((boot [0] []).Fetches ∧ (boot [10] []).Fetches ∧ (boot [98] []).Fetches ∧
      (0 : Cell).toInt % 100 ∉ [1, 2, 3, 4, 5, 6, 7, 8, 9, 99] ∧
      (10 : Cell).toInt % 100 ∉ [1, 2, 3, 4, 5, 6, 7, 8, 9, 99] ∧
      (98 : Cell).toInt % 100 ∉ [1, 2, 3, 4, 5, 6, 7, 8, 9, 99]) ∧
    ((boot [99] []).Fetches ∧ (boot [99] []).decodeAt 0 = .ok .hlt) := by
  refine ⟨⟨⟨?_, ?_, ?_⟩, ?_, ?_⟩, ⟨⟨?_, ?_, ?_⟩, ⟨?_, ?_, ?_⟩, ⟨?_, ?_, ?_⟩, ?_, ?_, ?_⟩, ⟨?_, ?_, ?_⟩, rfl⟩ <;> decide
theorem witness_ExtraDigitsFollowTheParameter :
    ((bootStrict [10099] []).Fetches ∧ (bootStrict [10099] []).cfg.extraDigits = .fault) ∧
    ((boot [10099] []).Fetches ∧ (boot [10099] []).cfg.extraDigits = .ignore) ∧
    (bootStrict [10099] []).mem.read 0 = 10099 ∧ (boot [10099] []).mem.read 0 = 10099 ∧
    (10099 : Cell).toInt % 100 = Opcode.hlt.number ∧ (10099 : Cell).toInt / 10 ^ (Opcode.hlt.count + 2) ≠ 0 := by
  refine ⟨⟨⟨?_, ?_, ?_⟩, ?_⟩, ⟨⟨?_, ?_, ?_⟩, ?_⟩, ?_, ?_, ?_, ?_⟩ <;> decide
/-- A taken JT to -1, to the extent, to an instruction and to a word that is none; and a taken JF. -/
theorem witness_JumpTargetIsCheckedAtTheNextFetch :
    (∀ v ∈ [-1, 3, 2, 0], (boot [1105, 1, 99] []).status = .ready ∧
      firstEvent ((boot [1105, 1, 99] []).operandEvents .read 1 (im 1)) = none ∧
      firstEvent ((boot [1105, 1, 99] []).operandEvents .read 2 (im v)) = none ∧
      (boot [1105, 1, 99] []).operandValue (im 1) ≠ 0 ∧
      (nextOr State.reset (exec (.jt (im 1) (im v)) (boot [1105, 1, 99] []))).pc = v) ∧
    ((boot [1105, 1, 99] []).decodeAt 2 = .ok .hlt ∧ (boot [1105, 1, 99] []).decodeAt 1 = .ok (.add (at' 99) (at' 0) (at' 0)) ∧
      (boot [1106, 0, 3, 50] []).decodeAt 3 = .error (.unsupportedOpcode 50)) ∧
    (boot [1106, 0, 3, 50] []).operandValue (im 0) = 0 := by
  refine ⟨by decide, ⟨rfl, rfl, rfl⟩, by decide⟩

/-- ADD with every mode, `dst` at the largest address. -/
def wide : State := (boot [21001, 2, 3, maxInt, 99] []).setRb 0
theorem witness_AddStoresTheExactSum : wide.Resolves .read 1 (at' 2) ∧ wide.Resolves .read 2 (im 3) ∧
    wide.Resolves .write 3 (rl maxInt) ∧ wide.effectiveAddress (rl maxInt) = some maxInt ∧
    (6 : Cell).toInt = (wide.operandValue (at' 2)).toInt + (wide.operandValue (im 3)).toInt :=
  ⟨resolves_of (by decide), resolves_of (by decide), resolves_of (by decide), by decide, by decide⟩
theorem witness_MulStoresTheExactProduct : wide.Resolves .read 1 (im minInt) ∧ wide.Resolves .read 2 (im 1) ∧
    wide.Resolves .write 3 (at' 0) ∧ wide.effectiveAddress (at' 0) = some 0 ∧
    (Cell.ofInt minInt).toInt = (wide.operandValue (im minInt)).toInt * (wide.operandValue (im 1)).toInt :=
  ⟨resolves_of (by decide), resolves_of (by decide), resolves_of (by decide), by decide, by decide⟩
theorem witness_LtStoresTheSignedComparison : wide.Resolves .read 1 (im minInt) ∧ wide.Resolves .read 2 (im maxInt) ∧
    wide.Resolves .write 3 (at' 0) ∧ wide.effectiveAddress (at' 0) = some 0 :=
  ⟨resolves_of (by decide), resolves_of (by decide), resolves_of (by decide), by decide⟩
theorem witness_EqStoresTheEqualityTest : wide.Resolves .read 1 (rl 0) ∧ wide.Resolves .read 2 (im 21001) ∧
    wide.Resolves .write 3 (rl 0) ∧ wide.effectiveAddress (rl 0) = some 0 ∧
    wide.operandValue (rl 0) = wide.operandValue (im 21001) :=
  ⟨resolves_of (by decide), resolves_of (by decide), resolves_of (by decide), by decide, by decide⟩
theorem witness_InStoresTheOldestInput : (boot [3, 3, 99, 0] [42, 43]).inq = 42 :: [43] ∧
    (boot [3, 3, 99, 0] [42, 43]).Resolves .write 1 (at' 3) ∧
    (boot [3, 3, 99, 0] [42, 43]).effectiveAddress (at' 3) = some 3 :=
  ⟨by decide, resolves_of (by decide), by decide⟩
theorem witness_InSuspendsOnAnEmptyQueue : (boot [103, 3, 99, 0] []).inq = [] ∧ (boot [103, 3, 99, 0] []).Fetches ∧
    (boot [103, 3, 99, 0] []).decodeAt 0 = .ok (.inp (im 3)) :=
  ⟨by decide, ⟨by decide, by decide, by decide⟩, by rfl⟩
theorem witness_OutAppendsTheValue : wide.Resolves .read 1 (at' 0) ∧ wide.Resolves .read 1 (im (-9)) :=
  ⟨resolves_of (by decide), resolves_of (by decide)⟩
/-- Both clauses: a value that is 0 and one that is not. -/
theorem witness_JtJumpsWhenNotZero : wide.Resolves .read 1 (im 0) ∧ wide.operandValue (im 0) = 0 ∧
    wide.Resolves .read 1 (im (-3)) ∧ wide.operandValue (im (-3)) ≠ 0 ∧ wide.Resolves .read 2 (im (-1)) :=
  ⟨resolves_of (by decide), by decide, resolves_of (by decide), by decide, resolves_of (by decide)⟩
theorem witness_JfJumpsWhenZero : wide.Resolves .read 1 (at' 7) ∧ wide.operandValue (at' 7) = 0 ∧
    wide.Resolves .read 1 (at' 0) ∧ wide.operandValue (at' 0) ≠ 0 ∧ wide.Resolves .read 2 (rl 0) :=
  ⟨resolves_of (by decide), by decide, resolves_of (by decide), by decide, resolves_of (by decide)⟩
theorem witness_ArbAddsToTheRelativeBase : wide.Resolves .read 1 (im minInt) ∧
    (Cell.ofInt minInt).toInt = wide.rb.toInt + (wide.operandValue (im minInt)).toInt :=
  ⟨resolves_of (by decide), by decide⟩
theorem witness_HltHaltsForGood : (boot [99] []).Fetches ∧ (boot [99] []).decodeAt 0 = .ok .hlt :=
  ⟨⟨by decide, by decide, by decide⟩, by rfl⟩
/-- One past each end of INT64. -/
theorem witness_OverflowFaultsAndWritesNothing : wide.Resolves .read 1 (im maxInt) ∧ wide.Resolves .read 2 (im 1) ∧
    wide.Resolves .write 3 (at' 0) ∧ ¬ fits64 ((wide.operandValue (im maxInt)).toInt + (wide.operandValue (im 1)).toInt) ∧
    wide.Resolves .read 1 (im (-1)) ∧ wide.Resolves .read 2 (im minInt) ∧
    ¬ fits64 ((wide.operandValue (im (-1))).toInt * (wide.operandValue (im minInt)).toInt) ∧
    ¬ fits64 ((wide.setRb (Cell.ofInt minInt)).rb.toInt + ((wide.setRb (Cell.ofInt minInt)).operandValue (im (-1))).toInt) :=
  ⟨resolves_of (by decide), resolves_of (by decide), resolves_of (by decide), by decide, resolves_of (by decide),
    resolves_of (by decide), by decide, by decide⟩
theorem witness_FirstEventIsTheFaultTaken : wide.mustWait (.out (bad (-1))) = false ∧
    firstEvent (wide.events (.out (bad (-1)))) = some ⟨.invalidMode, some 1⟩ ∧
    firstEvent (wide.events (.add (im 0) (at' (-1)) (im 0))) = some ⟨.addressUnderflow, some 2⟩ ∧
    firstEvent (wide.events (.mul (im maxInt) (im 2) (at' 0))) = some ⟨.arithmeticOverflow, none⟩ := by decide
theorem witness_NoEventMeansNoFault : wide.mustWait .hlt = false ∧ firstEvent (wide.events .hlt) = none ∧
    wide.mustWait (.out (im 0)) = false ∧ firstEvent (wide.events (.out (im 0))) = none := by decide
/-- At the boundary: the address is the extent. -/
theorem witness_FixedBufferEndFaults : (bootFixed 9 [3, 9] [1]).cfg.memPolicy = .fixed ∧
    (bootFixed 9 [3, 9] [1]).pc + 1 < (bootFixed 9 [3, 9] [1]).ext ∧ (at' 9).mode.legal = true ∧
    (bootFixed 9 [3, 9] [1]).effectiveAddress (at' 9) = some 9 ∧ ((bootFixed 9 [3, 9] [1]).ext : Int) ≤ 9 ∧
    (bootFixed 9 [3, 9] [1]).inq ≠ [] := by decide
/-- At the boundary: the address is the extent. The operand is OUT's first and ADD's second. -/
theorem witness_GrowReadBeyondExtentGivesZero : (boot [4, 3, 99] []).Inv ∧ (boot [4, 3, 99] []).cfg.memPolicy = .grow ∧
    (boot [4, 3, 99] []).effectiveAddress (at' 3) = some 3 ∧ ((boot [4, 3, 99] []).ext : Int) ≤ 3 ∧
    (boot [4, 3, 99] []).Resolves .read 1 (at' 3) ∧ (boot [4, 3, 99] []).Resolves .read 2 (at' 3) ∧
    at' 3 ∈ [im 0, at' 3, at' 0] :=
  ⟨inv_boot [4, 3, 99] [] _ (by rfl), by decide, by decide, by decide, resolves_of (by decide), resolves_of (by decide),
    by decide⟩
/-- CAP infinite, below 2^63 and above it; the last address below the limit and the first at it, of an operand and of a
literal. -/
theorem witness_GrowCapacityIsTheAddressLimit :
    ((boot [4, 3] [1]).cfg.memPolicy = .grow ∧ (boot [4, 3] [1]).cfg.cap = none) ∧
    ((bootCapped 9 [4, 8] [1]).cfg.memPolicy = .grow ∧ (bootCapped 9 [4, 8] [1]).cfg.cap = some 9 ∧ (9 : Nat) = min 9 (2 ^ 63)) ∧
    ((bootCapped (2 ^ 64) [4, 8] [1]).cfg.cap = some (2 ^ 64) ∧ (2 : Nat) ^ 63 = min (2 ^ 64) (2 ^ 63)) ∧
    ((at' 9).mode.legal = true ∧ (bootCapped 9 [4, 8] [1]).pc + 1 < 9 ∧
      (bootCapped 9 [4, 8] [1]).effectiveAddress (at' 9) = some 9 ∧
      (bootCapped 9 [4, 8] [1]).effectiveAddress (at' 8) = some 8 ∧ (bootCapped 9 [4, 8] [1]).inq ≠ [] ∧
      (bootCapped 9 [4, 8] [1]).inq = 1 :: []) ∧
    ((1 : Int) ≤ (bootCapped 1 [4] []).pc + 1 ∧ (bootCapped 1 [4] []).cfg.cap = some 1) := by decide

/-- A crashed machine and a halted one. -/
def crashed : State := after (boot [50] [])
def halted : State := after (boot [99] [])
theorem witness_FaultIsPermanent : crashed.status = .faulted ⟨.unsupportedOpcode, 0, some 50, some 50, none⟩ := by decide
theorem witness_HaltIsPermanent : halted.status = .halted := by decide
theorem witness_StoppedMachineDoesNotRun : halted.status = .halted ∧ ∃ f, crashed.status = .faulted f :=
  ⟨by decide, _, witness_FaultIsPermanent⟩
theorem witness_AluFrame : (Instr.add (im 1) (im 2) (at' 9)) ∈
    [Instr.add (im 1) (im 2) (at' 9), .mul (im 1) (im 2) (at' 9), .lt (im 1) (im 2) (at' 9), .eq (im 1) (im 2) (at' 9)] ∧
    (∃ t, exec (.add (im 1) (im 2) (at' 9)) wide = .next t ∧ t.status = wide.status) ∧
    ∃ t f, exec (.add (im 1) (im 2) (im 9)) wide = .next t ∧ t.status = .faulted f :=
  ⟨by decide, ⟨_, rfl, by decide⟩, ⟨_, _, rfl, rfl⟩⟩
theorem witness_InFrame : ∃ t, exec (.inp (at' 3)) (boot [3, 3, 99, 0] [42]) = .next t ∧ t.inq = [] :=
  ⟨_, rfl, by decide⟩
theorem witness_NonStoringFrame : Instr.hlt.op ∈ [Opcode.out, .jt, .jf, .arb, .hlt] ∧
    (∃ t, exec .hlt wide = .next t ∧ t.status = .halted) ∧ ∃ t, exec (.out (im 5)) wide = .next t ∧ t.outq = [5] :=
  ⟨by decide, ⟨_, rfl, by decide⟩, ⟨_, rfl, by decide⟩⟩
theorem witness_StepKeepsTheInvariant : (boot [104, 7, 99] []).Inv ∧ ∃ t, step (boot [104, 7, 99] []) = .next t ∧ t.pc = 2 :=
  ⟨inv_boot [104, 7, 99] [] _ (by rfl), _, rfl, by decide⟩
theorem witness_TransactionsKeepTheInvariant : (boot [104, 7, 99] []).Inv := inv_boot [104, 7, 99] [] _ (by rfl)
theorem witness_ConstructedInstanceHasTheInvariant :
    (∃ s, construct Config.default [104, 7, 99] [] = some s) ∧
    ∃ s, construct ⟨.fixed, some 9, .ignore⟩ [104, 7, 99] [] = some s ∧ s.ext ≤ 2 ^ 63 :=
  ⟨⟨_, rfl⟩, ⟨_, rfl, by decide⟩⟩
/-- A ready machine and a halted one. -/
theorem witness_StepAnswersUnlessCrashed : (∀ f, State.reset.status ≠ .faulted f) ∧ ∀ f, halted.status ≠ .faulted f :=
  ⟨fun f h => (by cases h), fun f h => (by rw [witness_HaltIsPermanent] at h; cases h)⟩
theorem witness_ExtentNeverShrinks : (∃ t, step (boot [4, 3, 99] []) = .next t ∧ t.ext = 4) ∧
    ∃ t, step (bootFixed 9 [4, 3, 99] []) = .next t ∧ t.ext = 9 :=
  ⟨⟨_, rfl, by decide⟩, ⟨_, rfl, by decide⟩⟩
/-- The pc advances, and stays where the instruction suspends. -/
theorem witness_OnlyJumpsRedirectThePc :
    (∃ t, exec (.out (im 5)) wide = .next t ∧ wide.status = .ready ∧ t.status = .ready ∧ t.pc = 2) ∧
    ∃ t, exec (.inp (at' 0)) wide = .next t ∧ wide.mustWait (.inp (at' 0)) = true ∧ t.pc = 0 :=
  ⟨⟨_, rfl, by decide, by decide, by decide⟩, ⟨_, rfl, by decide, by decide⟩⟩
theorem witness_OnlyArbWritesTheRelativeBase : ∃ t, step (boot [109, 1, 99] []) = .next t ∧ t.rb ≠ (boot [109, 1, 99] []).rb :=
  ⟨_, rfl, by decide⟩
theorem witness_OnlyInputSuspends : ∃ t, (boot [104, 7, 3, 0] []).resume 5 [] = .returned [7] .suspended t ∧ t.pc = 2 :=
  ⟨_, rfl, by decide⟩
theorem witness_OutputQueueIsNeverRead : (∃ t, step (boot [104, 7, 99] []) = .next t ∧ t.outq = [7]) ∧
    ∃ f, step crashed = .fault f :=
  ⟨⟨_, rfl, by decide⟩, ⟨_, rfl⟩⟩
theorem witness_QueuedInputWaitsItsTurn : (boot [3, 3, 99, 0] [42]).suspends = false ∧
    ∃ t, step (boot [3, 3, 99, 0] [42]) = .next t :=
  ⟨by decide, _, rfl⟩
theorem witness_SuspendedResumeEqualsOneResume : ∃ t u, (boot [104, 7, 3, 0, 99] []).resume 5 [] = .returned [7] .suspended t ∧
    t.resume 5 [42] = .returned [] .halted u :=
  ⟨_, _, rfl, rfl⟩
theorem witness_ResumeReturnsOneResult : ∃ t u, (boot [104, 7, 99] []).resume 2 [] = .returned [7] .halted t ∧
    (boot [104, 7, 99] []).resume 3 [] = .returned [7] .halted u :=
  ⟨_, _, rfl, rfl⟩
/-- A halt, and a fault after an output; and what the first of the two steps of each appends. -/
theorem witness_ResumeReturnsAndDrainsTheOutput : (boot [104, 7, 99] []).status = .ready ∧
    (∃ t, (boot [104, 7, 99] []).resume 2 [] = .returned [7] .halted t) ∧
    (∃ t f, (boot [104, 7, 50] []).resume 2 [] = .returned [7] (.faulted f) t) ∧
    (stepsFrom 2 (boot [104, 7, 99] [])).map State.outputOf = [[7], []] :=
  ⟨by decide, ⟨_, rfl⟩, ⟨_, _, rfl⟩, by decide⟩
/-- The program of [S2]: the ADD writes the HLT that is fetched next. -/
theorem witness_StoredInstructionRunsNext : (boot [1101, 100, -1, 4, 0] []).status = .ready ∧
    (boot [1101, 100, -1, 4, 0] []).mem.wf = true ∧ (boot [1101, 100, -1, 4, 0] []).Resolves .read 1 (im 100) ∧
    (boot [1101, 100, -1, 4, 0] []).Resolves .read 2 (im (-1)) ∧ (boot [1101, 100, -1, 4, 0] []).Resolves .write 3 (at' 4) ∧
    (boot [1101, 100, -1, 4, 0] []).effectiveAddress (at' 4) = some ((boot [1101, 100, -1, 4, 0] []).pc + 4) ∧
    (99 : Cell).toInt = ((boot [1101, 100, -1, 4, 0] []).operandValue (im 100)).toInt +
      ((boot [1101, 100, -1, 4, 0] []).operandValue (im (-1))).toInt ∧
    decode .ignore 99 ((boot [1101, 100, -1, 4, 0] []).mem.read 5) ((boot [1101, 100, -1, 4, 0] []).mem.read 6)
      ((boot [1101, 100, -1, 4, 0] []).mem.read 7) = .ok .hlt :=
  ⟨by decide, by decide, resolves_of (by decide), resolves_of (by decide), resolves_of (by decide), by decide, by decide,
    by rfl⟩
theorem witness_ConstructionSetsEveryField : (∃ s, construct Config.default [5, 0, -7] [1] = some s ∧ s.ext = 3) ∧
    ∃ s, construct ⟨.fixed, some 2, .ignore⟩ [5, 0, -7] [1] = some s ∧ s.ext = 3 :=
  ⟨⟨_, rfl, by decide⟩, ⟨_, rfl, by decide⟩⟩
/-- A text that is a program, one of whose integers is the largest or one more; an empty one; and each reason for a
refusal. -/
theorem loadText_decimal (ds : List Nat) (h : ds ≠ []) (hd : ∀ d ∈ ds, d < 10) :
    IsLoadText ([' '] ++ ds.map Nat.digitChar ++ ['\n']) [((ds.foldl (fun n d => 10 * n + d) 0 : Nat) : Int)] :=
  ⟨[' '], ['\n'], [ds.map Nat.digitChar], by simp, by simp [List.intercalate], .cons ⟨ds, h, hd, .inl ⟨rfl, rfl⟩⟩ .nil⟩
theorem witness_ConstructionIsRefusedExactlyOnLoadErrors : IsLoadText [] [] ∧
    (∃ text, IsLoadText text [maxInt] ∧ fits64 maxInt) ∧ (∃ text, IsLoadText text [maxInt + 1] ∧ ¬ fits64 (maxInt + 1)) ∧
    IsLoadText ['4', '2', ',', '-', '7'] [42, -7] ∧
    (constructFromText Config.default ['1', 'x'] []).isSome = false ∧
    (constructFromText Config.default ['9', '9'] []).isSome = true ∧
    (constructFromText ⟨.fixed, none, .ignore⟩ ['9', '9'] []).isSome = false ∧ Config.default.memPolicy = .grow := by
  refine ⟨⟨[], [], [], by simp, by rfl, .nil⟩,
    ⟨_, loadText_decimal [9, 2, 2, 3, 3, 7, 2, 0, 3, 6, 8, 5, 4, 7, 7, 5, 8, 0, 7] (by decide) (by decide), by decide⟩,
    ⟨_, loadText_decimal [9, 2, 2, 3, 3, 7, 2, 0, 3, 6, 8, 5, 4, 7, 7, 5, 8, 0, 8] (by decide) (by decide), by decide⟩,
    ⟨[], [], [['4', '2'], ['-', '7']], by simp, by decide, ?_⟩, by decide, by decide, by decide, by decide⟩
  exact .cons ⟨[4, 2], by decide, by decide, .inl ⟨by decide, by decide⟩⟩
    (.cons ⟨[7], by decide, by decide, .inr ⟨by decide, by decide⟩⟩ .nil)
theorem witness_LoadTextGivesItsProgram : ∀ ch ∈ ['\n'] ++ [' '], isBlank ch = true := by simp [isBlank]
/-- The last address below the limit, and the first at it, under both policies. -/
theorem witness_PeekReadsBelowTheLimit : (0 ≤ maxInt ∧ maxInt < wide.addrLimit) ∧ (wide.addrLimit : Int) ≤ maxInt + 1 ∧
    (8 : Int) < (bootFixed 9 [99] []).addrLimit ∧ ((bootFixed 9 [99] []).addrLimit : Int) ≤ 9 := by decide
theorem witness_PokeWritesOneCell : wide.mem.wf = true ∧ (0 ≤ maxInt ∧ maxInt < wide.addrLimit) ∧
    (wide.addrLimit : Int) ≤ maxInt + 1 := by decide
/-- HLT, and the implicit halt. -/
theorem witness_QueriesAnswerTheStatus : (∃ t, step (boot [99] []) = .next t ∧ t.status = .halted) ∧
    (boot [99] []).status ≠ .halted ∧ ∃ t, step State.reset = .next t ∧ t.status = .halted ∧ State.reset.status ≠ .halted :=
  ⟨⟨_, rfl, by decide⟩, by decide, ⟨_, rfl, by decide, by decide⟩⟩
theorem witness_PlacedWordRunsNext : State.reset.mem.wf = true ∧ State.reset.cfg.extraDigits = .ignore ∧
    decodeTableWord 64 99 = some .hlt ∧ (step (State.reset.withFetchWord 64 99) = exec .hlt (State.reset.withFetchWord 64 99)) := by
  exact ⟨rfl, rfl, rfl, rfl⟩

end Sys2Proof.Tests.Slice0
end

/-! PROOFS. The state family (10_state): the reset state and construction, the invariant, the extent, the relative base
and the permanence of a halt. -/

namespace Sys2Proof.Machine

/-! ### Fault records: the pc and the word (60_exceptions R131) -/

@[simp] theorem State.recordAt_pc (s : State) (op : Opcode) (tr : Trap) : (s.recordAt op tr).pc = s.pc := rfl
@[simp] theorem State.recordAt_word (s : State) (op : Opcode) (tr : Trap) :
    (s.recordAt op tr).word = some (s.mem.read s.pc.toNat) := rfl
@[simp] theorem State.underflowRecord_pc (s : State) : s.underflowRecord.pc = s.pc := rfl
@[simp] theorem State.underflowRecord_word (s : State) : s.underflowRecord.word = none := rfl
@[simp] theorem State.rejectRecord_pc (s : State) (r : DecodeReject) : (s.rejectRecord r).pc = s.pc := by
  cases r <;> rfl
@[simp] theorem State.rejectRecord_word (s : State) (r : DecodeReject) :
    (s.rejectRecord r).word = some (s.mem.read s.pc.toNat) := by
  cases r <;> rfl

/-! ### The extents an instruction can reach (20_memory R44, R45) -/

/-- `e` is an extent that accesses from `s` can leave: under Grow no smaller than that of `s`, under Fixed the same
(10_state R24). -/
structure State.CanReach (s : State) (e : Nat) : Prop where
  le : s.ext ≤ e
  fixed : s.cfg.memPolicy = .fixed → e = s.ext

theorem State.canReach_ext (s : State) : s.CanReach s.ext := ⟨Nat.le_refl _, fun _ => rfl⟩

theorem State.CanReach.grown {s : State} {e : Nat} (h : s.CanReach e) (a : Int) : s.CanReach (s.grown e a) where
  le := Nat.le_trans h.le (s.le_grown e a)
  fixed hp := by simp [State.grown, hp, h.fixed hp]

/-- The extent after an accepted access covers its address: by growth under Grow, by the limit under Fixed. -/
theorem State.CanReach.lt_grown {s : State} {e : Nat} {a : Int} (h : s.CanReach e) (h0 : 0 ≤ a)
    (hl : a < s.addrLimit) : a.toNat < s.grown e a := by
  rw [State.grown_eq s e h0]
  cases hp : s.cfg.memPolicy with
  | grow => simp
  | fixed =>
    rw [State.addrLimit_fixed hp] at hl
    have := h.le
    simp only
    omega

theorem State.CanReach.readOperand {s : State} {e p e' : Nat} {o : Operand} {v : Cell} (h : s.CanReach e)
    (hr : s.readOperand e p o = .ok (v, e')) : s.CanReach e' := by
  obtain ⟨-, ⟨-, -, -, -, rfl⟩ | ⟨-, -, rfl⟩ | ⟨-, -, -, -, rfl⟩⟩ := State.readOperand_ok.1 hr
  · exact h.grown _
  · exact h
  · exact h.grown _

theorem State.CanReach.dstAddr {s : State} {e p e' : Nat} {o : Operand} {a : Int} (h : s.CanReach e)
    (hd : s.dstAddr e p o = .ok (a, e')) : s.CanReach e' ∧ a.toNat < e' := by
  obtain ⟨-, h0, hl, rfl, -⟩ := State.dstAddr_ok.1 hd
  exact ⟨h.grown a, h.lt_grown h0 hl⟩

/-! ### What an instruction that completes does -/

/-- What every instruction of opcode `op` that completes keeps of `s`, and what it may change (30_encoding R76): at most
one cell, below the new extent; the pc, past a literal whose address was checked or to a jump's target; the relative base
only if it is ARB. -/
structure State.Completes (s : State) (op : Opcode) (t : State) : Prop where
  cfg : t.cfg = s.cfg
  status : t.status = s.status
  ext : s.CanReach t.ext
  mem : t.mem = s.mem ∨ ∃ a v, a < t.ext ∧ t.mem = s.mem.write a v
  pc : (∃ p : Nat, s.pc + p < s.addrLimit ∧ t.pc = s.pc + p + 1) ∨ fits64 t.pc
  rb : op ≠ .arb → t.rb = s.rb

theorem State.literal_lt_of_readOperand {s : State} {e p e' : Nat} {o : Operand} {v : Cell}
    (h : s.readOperand e p o = .ok (v, e')) : s.pc + p < s.addrLimit := (State.readOperand_ok.1 h).1

theorem State.literal_lt_of_dstAddr {s : State} {e p e' : Nat} {o : Operand} {a : Int}
    (h : s.dstAddr e p o = .ok (a, e')) : s.pc + p < s.addrLimit := (State.dstAddr_ok.1 h).1

theorem aluResult_completes {f : Int → Int → Int} {a b d : Operand} {s t : State} {op : Opcode}
    (h : aluResult f a b d s = .ok t) : s.Completes op t := by
  obtain ⟨x, y, e1, e2, c, e3, r, ha, hb, hd, -, rfl⟩ := aluResult_ok.1 h
  obtain ⟨he, hc⟩ := ((s.canReach_ext.readOperand ha).readOperand hb).dstAddr hd
  exact ⟨rfl, rfl, he, .inr ⟨_, _, hc, rfl⟩, .inl ⟨3, State.literal_lt_of_dstAddr hd, by simp; omega⟩, fun _ => rfl⟩

theorem inpResult_completes {d : Operand} {v : Cell} {rest : List Cell} {s t : State} {op : Opcode}
    (h : inpResult d v rest s = .ok t) : s.Completes op t := by
  obtain ⟨c, e, hd, rfl⟩ := inpResult_ok.1 h
  obtain ⟨he, hc⟩ := s.canReach_ext.dstAddr hd
  exact ⟨rfl, rfl, he, .inr ⟨_, _, hc, rfl⟩, .inl ⟨1, State.literal_lt_of_dstAddr hd, by simp; omega⟩, fun _ => rfl⟩

theorem jumpResult_completes {taken : Int → Bool} {a target : Operand} {s t : State} {op : Opcode}
    (h : jumpResult taken a target s = .ok t) : s.Completes op t := by
  obtain ⟨x, y, e1, e2, ha, hb, rfl⟩ := jumpResult_ok.1 h
  refine ⟨rfl, rfl, (s.canReach_ext.readOperand ha).readOperand hb, .inl rfl, ?_, fun _ => rfl⟩
  rw [State.commit_pc]
  split
  · exact .inr (Cell.fits64_toInt y)
  · exact .inl ⟨2, State.literal_lt_of_readOperand hb, by omega⟩

/-- How an instruction that ends with `finish` ends: with a fault entry, or complete. -/
theorem State.finish_cases {s t : State} {op : Opcode} {r : Except Trap State} (h : s.finish op r = .next t)
    (hr : ∀ u, r = .ok u → s.Completes op u) :
    (∃ tr, t = s.takeFault (s.recordAt op tr)) ∨ s.Completes op t := by
  obtain hok | ⟨tr, -, ht⟩ := State.finish_next.1 h
  · exact .inr (hr t hok)
  · exact .inl ⟨tr, ht⟩

theorem execOut_cases {a : Operand} {s t : State} (h : execOut a s = .next t) :
    (∃ tr, t = s.takeFault (s.recordAt .out tr)) ∨ s.Completes .out t := by
  refine State.finish_cases h fun u hu => ?_
  cases ha : s.readOperand s.ext 1 a with
  | error tr => simp [ha] at hu
  | ok xe =>
    obtain ⟨x, e⟩ := xe
    simp only [ha, Except.ok.injEq] at hu
    subst hu
    exact ⟨rfl, rfl, s.canReach_ext.readOperand ha, .inl rfl,
      .inl ⟨1, State.literal_lt_of_readOperand ha, by simp; omega⟩, fun _ => rfl⟩

theorem execArb_cases {a : Operand} {s t : State} (h : execArb a s = .next t) :
    (∃ tr, t = s.takeFault (s.recordAt .arb tr)) ∨ s.Completes .arb t := by
  refine State.finish_cases h fun u hu => ?_
  cases ha : s.readOperand s.ext 1 a with
  | error tr => simp [ha] at hu
  | ok xe =>
    obtain ⟨x, e⟩ := xe
    cases hr : checkedResult (s.rb.toInt + x.toInt) with
    | error tr => simp [ha, hr] at hu
    | ok r =>
      simp only [ha, hr, Except.ok.injEq] at hu
      subst hu
      exact ⟨rfl, rfl, s.canReach_ext.readOperand ha, .inl rfl,
        .inl ⟨1, State.literal_lt_of_readOperand ha, by simp; omega⟩, fun hne => absurd rfl hne⟩

/-- Everything an instruction can do: fault, suspend, halt or complete (30_encoding R76, 60_exceptions R132, R137,
43_base_halt R121). -/
theorem exec_cases {i : Instr} {s t : State} (h : exec i s = .next t) :
    ((∃ tr, t = s.takeFault (s.recordAt i.op tr)) ∨ s.Completes i.op t) ∨
    (i.op = .inp ∧ s.inq = [] ∧ t = s) ∨ (i = .hlt ∧ t = s.halt) := by
  cases i with
  | add a b d => exact .inl (State.finish_cases h fun _ => aluResult_completes)
  | mul a b d => exact .inl (State.finish_cases h fun _ => aluResult_completes)
  | lt a b d => exact .inl (State.finish_cases h fun _ => aluResult_completes)
  | eq a b d => exact .inl (State.finish_cases h fun _ => aluResult_completes)
  | jt a target => exact .inl (State.finish_cases h fun _ => jumpResult_completes)
  | jf a target => exact .inl (State.finish_cases h fun _ => jumpResult_completes)
  | out a => exact .inl (execOut_cases h)
  | arb a => exact .inl (execArb_cases h)
  | hlt => injection h with h; exact .inr (.inr ⟨rfl, h.symm⟩)
  | inp d =>
    simp only [exec, execInp] at h
    cases hq : s.inq with
    | nil => simp only [hq, Host.Outcome.next.injEq] at h; exact .inr (.inl ⟨rfl, rfl, h.symm⟩)
    | cons v rest => simp only [hq] at h; exact .inl (State.finish_cases h fun _ => inpResult_completes)

/-! ### The invariant -/

/-- A fault entry keeps the invariant when its record is that of the pc it stops at. -/
theorem State.Inv.takeFault {s : State} (h : s.Inv) {f : FaultRecord} (hpc : f.pc = s.pc)
    (hword : f.word = none ↔ s.pc < 0) : (s.takeFault f).Inv :=
  { h with
    faultPc := by rintro g ⟨⟩; exact hpc
    faultWord := by rintro g ⟨⟩; exact hword }

theorem State.Inv.halt {s : State} (h : s.Inv) : s.halt.Inv :=
  { h with
    faultPc := by rintro f ⟨⟩
    faultWord := by rintro f ⟨⟩ }

/-- An instruction that completes on a ready machine keeps the invariant. The pc stays in range because the literal before
the new pc was below the limit, which is at most 2^63. -/
theorem State.Inv.of_completes {s t : State} {op : Opcode} (h : s.Inv) (hs : s.status = .ready)
    (hc : s.Completes op t) : t.Inv := by
  have hready : t.status = .ready := hc.status.trans hs
  have hpc : -2 ^ 63 ≤ t.pc ∧ t.pc ≤ 2 ^ 63 := by
    obtain ⟨p, hlt, hp⟩ | ⟨hlow, hhigh⟩ := hc.pc
    · have := h.addrLimit_le
      have := h.pcLow
      omega
    · omega
  have hold : ∀ e ∈ s.mem, e.1 < t.ext := fun e he => Nat.lt_of_lt_of_le (h.memPresent e he) hc.ext.le
  refine ⟨?_, ?_, hpc.1, hpc.2, ?_, by simp [hready], by simp [hready]⟩
  · obtain hm | ⟨a, v, -, hm⟩ := hc.mem
    · exact hm ▸ h.memForm
    · exact hm ▸ Memory.wf_write h.memForm a v
  · obtain hm | ⟨a, v, ha, hm⟩ := hc.mem
    · exact hm ▸ hold
    · exact hm ▸ Memory.forall_write (P := fun e => e.1 < t.ext) ha hold
  · intro hp
    rw [hc.cfg] at hp
    rw [hc.ext.fixed hp]
    exact h.fixedExt hp

theorem State.Inv.of_exec {i : Instr} {s t : State} (h : s.Inv) (hf : s.Fetches) (hx : exec i s = .next t) : t.Inv := by
  obtain ⟨hs, hpc, -⟩ := hf
  obtain (⟨tr, rfl⟩ | hc) | ⟨-, -, rfl⟩ | ⟨-, rfl⟩ := exec_cases hx
  · exact h.takeFault rfl (by simp; omega)
  · exact h.of_completes hs hc
  · exact h
  · exact h.halt

/-- Settles O36: each way a step can end keeps the invariant. -/
theorem stepKeepsTheInvariant : Obligations.StepKeepsTheInvariant := by
  intro s t h hstep
  obtain ⟨-, rfl⟩ | ⟨-, hneg, rfl⟩ | ⟨-, -, -, rfl⟩ | ⟨⟨-, hpc, -⟩, r, -, rfl⟩ | ⟨hf, i, -, hx⟩ := step_cases hstep
  · exact h
  · exact h.takeFault rfl (by simp [hneg])
  · exact h.halt
  · exact h.takeFault (by simp) (by simp; omega)
  · exact h.of_exec hf hx

/-! ### Construction and reset (10_state R33) -/

theorem Config.initialExtent_grow {c : Config} (h : c.memPolicy = .grow) (n : Nat) : Config.initialExtent c n = n := by
  simp [Config.initialExtent, h]

theorem Config.initialExtent_fixed {c : Config} {cap : Nat} (h : c.memPolicy = .fixed) (hcap : c.cap = some cap)
    (n : Nat) : Config.initialExtent c n = max n cap := by
  simp [Config.initialExtent, h, hcap]

/-- Under Fixed an accepted configuration has a finite capacity (00_scope R7, 70_reset R172). -/
theorem Config.cap_of_acceptable {c : Config} (h : c.acceptable = true) (hp : c.memPolicy = .fixed) :
    ∃ cap, c.cap = some cap := by
  simpa [Config.acceptable, hp, Option.isSome_iff_exists] using h

theorem Config.le_initialExtent {c : Config} (h : c.acceptable = true) (n : Nat) : n ≤ Config.initialExtent c n := by
  cases hp : c.memPolicy with
  | grow => rw [Config.initialExtent_grow hp]
  | fixed =>
    obtain ⟨cap, hcap⟩ := Config.cap_of_acceptable h hp
    rw [Config.initialExtent_fixed hp hcap]
    exact Nat.le_max_left n cap

/-- Settles O39: the program's cells are written to empty memory, below the initial extent. -/
theorem constructedInstanceHasTheInvariant : Obligations.ConstructedInstanceHasTheInvariant := by
  intro c program input s hs hfixed
  obtain ⟨hc, -, rfl⟩ := construct_some hs
  refine ⟨Memory.wf_writeList rfl _ _, ?_, by simp, by simp, hfixed, by simp, by simp⟩
  exact Memory.writeList_lt _ _ _ (by simpa using Config.le_initialExtent hc _) (by simp)

/-- Settles O37: reset is the construction of an empty program, under Grow. -/
theorem resetHasTheInvariant : Obligations.ResetHasTheInvariant :=
  constructedInstanceHasTheInvariant Config.default [] [] State.reset rfl (fun h => nomatch h)

/-- Settles O51: memory is read off the written program, the extent off the policy. -/
theorem constructionSetsEveryField : Obligations.ConstructionSetsEveryField := by
  intro c program input s hs
  obtain ⟨hc, hfits, rfl⟩ := construct_some hs
  refine ⟨fun a ha => ?_, fun a ha => ?_, fun hp => Config.initialExtent_grow hp _, fun hp => ?_,
    rfl, rfl, rfl, rfl, rfl, rfl⟩
  · have hv : fits64 program[a] := hfits _ (List.getElem_mem ha)
    simp [Memory.read_writeList (m := []) rfl, ha, Cell.toInt_ofInt hv]
  · simp [Memory.read_writeList (m := []) rfl, Nat.not_lt.2 ha]
  · obtain ⟨cap, hcap⟩ := Config.cap_of_acceptable hc hp
    exact ⟨cap, hcap, Config.initialExtent_fixed hp hcap _⟩

/-! ### The extent (10_state R24) -/

/-- `t` has the configuration of `s`, and an extent that accesses from `s` can leave. -/
def State.ExtentFollows (s t : State) : Prop := t.cfg = s.cfg ∧ s.CanReach t.ext

theorem State.ExtentFollows.refl (s : State) : s.ExtentFollows s := ⟨rfl, s.canReach_ext⟩

theorem State.ExtentFollows.trans (s t u : State) : s.ExtentFollows t → t.ExtentFollows u → s.ExtentFollows u := by
  rintro ⟨hc, he⟩ ⟨hc', he'⟩
  refine ⟨hc'.trans hc, Nat.le_trans he.le he'.le, fun hp => ?_⟩
  rw [he'.fixed (hc ▸ hp), he.fixed hp]

theorem extentFollows_of_exec {i : Instr} {s t : State} (h : exec i s = .next t) : s.ExtentFollows t := by
  obtain (⟨tr, rfl⟩ | hc) | ⟨-, -, rfl⟩ | ⟨-, rfl⟩ := exec_cases h
  · exact .refl s
  · exact ⟨hc.cfg, hc.ext⟩
  · exact .refl _
  · exact .refl s

theorem extentFollows_of_step {s t : State} (h : step s = .next t) : s.ExtentFollows t := by
  obtain ⟨-, rfl⟩ | ⟨-, -, rfl⟩ | ⟨-, -, -, rfl⟩ | ⟨-, r, -, rfl⟩ | ⟨-, i, -, hx⟩ := step_cases h
  · exact .refl _
  · exact .refl s
  · exact .refl s
  · exact .refl s
  · exact extentFollows_of_exec hx

theorem State.extentFollows_of_poke {s t : State} {a : Int} {v : Cell} (h : s.poke a v = some t) :
    s.ExtentFollows t := by
  obtain ⟨-, -, rfl⟩ := State.poke_some h
  refine ⟨rfl, ?_⟩
  cases hp : s.cfg.memPolicy with
  | grow => exact ⟨Nat.le_max_left _ _, fun h => by simp [hp] at h⟩
  | fixed => exact s.canReach_ext

theorem State.extentFollows_transact (s : State) (fuel : Nat) (tx : Transaction) :
    s.ExtentFollows (s.transact fuel tx).2 :=
  State.transact_rel State.ExtentFollows.refl State.ExtentFollows.trans (fun _ _ => extentFollows_of_step)
    (fun s _ => .refl s) (fun s _ => .refl s) (fun _ _ _ _ => State.extentFollows_of_poke) s fuel tx

/-- Settles O41: no step and no transaction leaves the extents that accesses can reach. -/
theorem extentNeverShrinks : Obligations.ExtentNeverShrinks := by
  refine ⟨fun s t h => ?_, fun s fuel tx => ?_⟩
  · obtain ⟨-, he⟩ := extentFollows_of_step h
    exact ⟨fun _ => he.le, he.fixed⟩
  · obtain ⟨-, he⟩ := s.extentFollows_transact fuel tx
    exact ⟨fun _ => he.le, he.fixed⟩

/-! ### The relative base (10_state R26) and the halted status (R27) -/

theorem exists_arb_of_op {i : Instr} (h : i.op = .arb) : ∃ a, i = .arb a := by
  cases i <;> simp [Instr.op] at h ⊢

/-- An instruction that changes the relative base is an ARB. -/
theorem arb_of_exec_rb_ne {i : Instr} {s t : State} (h : exec i s = .next t) (hrb : t.rb ≠ s.rb) : ∃ a, i = .arb a := by
  obtain (⟨tr, rfl⟩ | hc) | ⟨-, -, rfl⟩ | ⟨-, rfl⟩ := exec_cases h
  · exact absurd rfl hrb
  · exact exists_arb_of_op (Decidable.byContradiction fun hop => hrb (hc.rb hop))
  · exact absurd rfl hrb
  · exact absurd rfl hrb

/-- Settles O43: a step that stops at the fetch keeps the base, and of the instructions ARB alone changes it. -/
theorem onlyArbWritesTheRelativeBase : Obligations.OnlyArbWritesTheRelativeBase := by
  intro s t h hrb
  obtain ⟨-, rfl⟩ | ⟨-, -, rfl⟩ | ⟨-, -, -, rfl⟩ | ⟨-, r, -, rfl⟩ | ⟨hf, i, hd, hx⟩ := step_cases h
  · exact absurd rfl hrb
  · exact absurd rfl hrb
  · exact absurd rfl hrb
  · exact absurd rfl hrb
  · obtain ⟨a, rfl⟩ := arb_of_exec_rb_ne hx hrb
    exact ⟨hf, a, hd⟩

/-- `t` is halted if `s` is. -/
def State.HaltFollows (s t : State) : Prop := s.status = .halted → t.status = .halted

theorem haltFollows_of_step {s t : State} (h : step s = .next t) : s.HaltFollows t := by
  intro hs
  rw [step_of_halted hs] at h
  injection h with h
  exact h ▸ hs

theorem State.haltFollows_of_poke {s t : State} {a : Int} {v : Cell} (h : s.poke a v = some t) : s.HaltFollows t := by
  obtain ⟨-, -, rfl⟩ := State.poke_some h
  exact id

theorem State.haltFollows_transact (s : State) (fuel : Nat) (tx : Transaction) :
    s.HaltFollows (s.transact fuel tx).2 :=
  State.transact_rel (P := State.HaltFollows) (fun _ => id) (fun _ _ _ hst htu => htu ∘ hst)
    (fun _ _ => haltFollows_of_step) (fun _ _ => id) (fun _ _ => id) (fun _ _ _ _ => State.haltFollows_of_poke) s fuel tx

theorem State.resume_of_halted {s : State} (h : s.status = .halted) (fuel : Nat) (xs : List Cell) :
    s.resume fuel xs = .returned [] .halted s := by
  simp only [State.resume, h]

/-- Settles O31: every transaction keeps a halt, and a resume of a halted machine returns at once. -/
theorem haltIsPermanent : Obligations.HaltIsPermanent := by
  intro s fuel hs
  refine ⟨fun tx => s.haltFollows_transact fuel tx hs, fun xs => ?_⟩
  simp only [State.transact, State.resume_of_halted hs]

end Sys2Proof.Machine

/-! PROOFS. The memory family (20_memory): capacity under both policies, reads beyond the extent, and a store that the
next fetch sees. -/

namespace Sys2Proof.Machine

/-! ### An operand with an effective address (20_memory R50, R51) -/

theorem State.mode_ne_immediate {s : State} {o : Operand} {a : Int} (h : s.effectiveAddress o = some a) :
    o.mode ≠ .immediate := by
  intro hm
  simp [State.effectiveAddress, hm] at h

theorem State.mode_legal {s : State} {o : Operand} {a : Int} (h : s.effectiveAddress o = some a) :
    o.mode.legal = true := by
  cases hm : o.mode with
  | illegal e => simp [State.effectiveAddress, hm] at h
  | position => rfl
  | immediate => rfl
  | relative => rfl

theorem State.operandValue_of_address {s : State} {o : Operand} {a : Int} (h : s.effectiveAddress o = some a) :
    s.operandValue o = s.mem.read a.toNat := by
  simp [State.operandValue, h]

/-- Under Grow the access of an operand raises the pending extent to cover its address (20_memory R44). -/
theorem State.grownBy_of_address {s : State} {o : Operand} {a : Int} (hp : s.cfg.memPolicy = .grow)
    (h : s.effectiveAddress o = some a) (h0 : 0 ≤ a) (e : Nat) : s.grownBy e o = max e (a.toNat + 1) := by
  simp [State.grownBy, h, State.grown_eq s e h0, hp]

theorem State.resolves_of_address {s : State} {p : Nat} {o : Operand} {a : Int} (acc : Access)
    (h : s.effectiveAddress o = some a) (hl : s.pc + p < s.addrLimit) (h0 : 0 ≤ a) (ha : a < s.addrLimit) :
    s.Resolves acc p o := by
  refine ⟨State.mode_legal h, hl, fun _ => State.mode_ne_immediate h, fun b hb => ?_⟩
  obtain rfl : a = b := Option.some.inj (h.symm.trans hb)
  exact ⟨h0, ha⟩

/-- The first event of an operand whose literal is at or above the limit (20_memory R43, 60_exceptions R135). -/
theorem State.outOfCapacity_of_literal {s : State} {p : Nat} {o : Operand} (acc : Access) (hm : o.mode.legal = true)
    (hl : (s.addrLimit : Int) ≤ s.pc + p) :
    firstEvent (s.operandEvents acc p o) = some ⟨.outOfCapacity, some p⟩ := by
  simp [State.operandEvents, firstEvent_cons, hm, hl]

/-- The first event of an operand whose address is at or above the limit and whose literal is below it. The address is
then not negative, so underflow does not come first. -/
theorem State.outOfCapacity_of_address {s : State} {p : Nat} {o : Operand} {a : Int} (acc : Access)
    (h : s.effectiveAddress o = some a) (hl : s.pc + p < s.addrLimit) (ha : s.addrLimit ≤ a) :
    firstEvent (s.operandEvents acc p o) = some ⟨.outOfCapacity, some p⟩ := by
  have h0 : ¬ a < 0 := by omega
  have hl' : ¬ (s.addrLimit : Int) ≤ s.pc + p := by omega
  simp [State.operandEvents, firstEvent_cons, State.mode_legal h, State.mode_ne_immediate h, h, h0, hl', ha]

/-! ### OUT, IN and ADD, on operands that resolve and on the first fault event -/

theorem exec_out_of_resolves {s : State} {o : Operand} (h : s.Resolves .read 1 o) :
    exec (.out o) s =
      .next ((s.setOutq (s.outq ++ [s.operandValue o])).commit (s.grownBy s.ext o) (s.pc + 2)) := by
  simp only [exec, execOut, State.readOperand_of_resolves h, State.finish]

theorem exec_out_of_event {s : State} {o : Operand} {t : Trap}
    (h : firstEvent (s.operandEvents .read 1 o) = some t) :
    exec (.out o) s = .next (s.takeFault (s.recordAt .out t)) := by
  simp only [exec, execOut, State.readOperand_of_event h, State.finish]

theorem exec_inp_of_resolves {s : State} {o : Operand} {a : Int} {v : Cell} {rest : List Cell}
    (hq : s.inq = v :: rest) (h : s.Resolves .write 1 o) (ha : s.effectiveAddress o = some a) :
    exec (.inp o) s =
      .next (((s.setInq rest).setMem (s.mem.write a.toNat v)).commit (s.grownBy s.ext o) (s.pc + 2)) := by
  simp only [exec, execInp, hq, inpResult_ok.2 ⟨a, _, State.dstAddr_of_resolves h ha, rfl⟩, State.finish]

theorem exec_inp_of_event {s : State} {o : Operand} {t : Trap} (hq : s.inq ≠ [])
    (h : firstEvent (s.operandEvents .write 1 o) = some t) :
    exec (.inp o) s = .next (s.takeFault (s.recordAt .inp t)) := by
  obtain ⟨v, rest, hq⟩ := List.exists_cons_of_ne_nil hq
  simp only [exec, execInp, hq, inpResult, State.dstAddr_of_event h, State.finish]

theorem exec_add_of_resolves {s : State} {a b d : Operand} {addr : Int} {r : Cell} (ha : s.Resolves .read 1 a)
    (hb : s.Resolves .read 2 b) (hd : s.Resolves .write 3 d) (haddr : s.effectiveAddress d = some addr)
    (hr : r.toInt = (s.operandValue a).toInt + (s.operandValue b).toInt) :
    exec (.add a b d) s = .next ((s.setMem (s.mem.write addr.toNat r)).commit
      (s.grownBy (s.grownBy (s.grownBy s.ext a) b) d) (s.pc + 4)) := by
  have hok := aluResult_ok.2 ⟨_, _, _, _, _, _, r, State.readOperand_of_resolves ha, State.readOperand_of_resolves hb,
    State.dstAddr_of_resolves hd haddr, checkedResult_ok.2 hr, rfl⟩
  simp only [exec, execAdd, hok, State.finish]

/-! ### Capacity (20_memory R43 to R45) -/

/-- Settles O27: under Fixed the limit is the buffer's end, and the operand's first event is the capacity fault. -/
theorem fixedBufferEndFaults : Obligations.FixedBufferEndFaults := by
  intro s o a hp hl _ ha hge
  rw [← State.addrLimit_fixed hp] at hl hge
  exact ⟨exec_out_of_event (State.outOfCapacity_of_address .read ha hl hge),
    fun hq => exec_inp_of_event hq (State.outOfCapacity_of_address .write ha hl hge)⟩

theorem State.addrLimit_grow_unbounded {s : State} (hp : s.cfg.memPolicy = .grow) (hc : s.cfg.cap = none) :
    s.addrLimit = 2 ^ 63 := by
  simp only [State.addrLimit, hp, hc]

theorem State.addrLimit_grow_capped {s : State} {c : Nat} (hp : s.cfg.memPolicy = .grow) (hc : s.cfg.cap = some c) :
    s.addrLimit = min c (2 ^ 63) := by
  simp only [State.addrLimit, hp, hc]

/-- Settles O59: the limit is read off the capacity; an operand at or above it has the capacity fault as its first event,
and one below it resolves. -/
theorem growCapacityIsTheAddressLimit : Obligations.GrowCapacityIsTheAddressLimit := by
  intro s limit hp hnone hsome
  have hlimit : s.addrLimit = limit := by
    cases hc : s.cfg.cap with
    | none => rw [State.addrLimit_grow_unbounded hp hc, hnone hc]
    | some c => rw [State.addrLimit_grow_capped hp hc, hsome c hc]
  subst hlimit
  refine ⟨rfl, fun o hm hl => exec_out_of_event (State.outOfCapacity_of_literal .read hm hl),
    fun o a _ hl ha => ⟨fun hge => ?_, fun h0 hlt => ?_⟩⟩
  · exact ⟨exec_out_of_event (State.outOfCapacity_of_address .read ha hl hge),
      fun hq => exec_inp_of_event hq (State.outOfCapacity_of_address .write ha hl hge)⟩
  · rw [← State.grownBy_of_address hp ha h0, ← State.operandValue_of_address ha]
    exact ⟨exec_out_of_resolves (State.resolves_of_address .read ha hl h0 hlt),
      fun v rest hq => exec_inp_of_resolves hq (State.resolves_of_address .write ha hl h0 hlt) ha⟩

/-! ### Reads beyond the extent under Grow (20_memory R44, 10_state R23) -/

/-- A cell at or beyond the extent is not present, so it reads 0. -/
theorem State.Inv.read_beyond_ext {s : State} (h : s.Inv) {a : Nat} (ha : s.ext ≤ a) : s.mem.read a = 0 :=
  Memory.read_of_unlisted fun e he => by
    have := h.memPresent e he
    omega

/-- Settles O28: the operand's value is a read beyond the extent, and its access grows the extent to its address. -/
theorem growReadBeyondExtentGivesZero : Obligations.GrowReadBeyondExtentGivesZero := by
  intro s o a hinv hp ha hge
  have h0 : 0 ≤ a := by omega
  have hvalue : s.operandValue o = 0 := by
    rw [State.operandValue_of_address ha, hinv.read_beyond_ext (by omega)]
  refine ⟨fun p e hr => ?_, hvalue, fun os ho => ?_, fun hr => ?_⟩
  · rw [State.readOperand_of_resolves hr, hvalue, State.grownBy_of_address hp ha h0]
  · have := State.extentAfter_covers hp ho ha
    omega
  · have hext : s.grownBy s.ext o = a.toNat + 1 := by
      rw [State.grownBy_of_address hp ha h0]
      omega
    rw [exec_out_of_resolves hr, hvalue, hext]
    rfl

/-! ### A store into the next instruction (20_memory R55) -/

theorem step_of_decodeAt {s : State} {i : Instr} (hf : s.Fetches) (hd : s.decodeAt s.pc.toNat = .ok i) :
    step s = exec i s := by
  obtain ⟨hs, hpc, hext⟩ := hf
  simp only [step, hs, State.fetch, hd, if_neg (Int.not_lt.2 hpc), if_neg (Int.not_le.2 hext)]

theorem State.CanReach.grownBy {s : State} {e : Nat} (h : s.CanReach e) (o : Operand) : s.CanReach (s.grownBy e o) := by
  unfold State.grownBy
  cases s.effectiveAddress o with
  | none => exact h
  | some a => exact h.grown a

/-- The decoder sees a cell written at its address, with the cells behind it as they were. -/
theorem State.decodeAt_write {s t : State} {a : Nat} {v : Cell} (hm : s.mem.wf = true) (hc : t.cfg = s.cfg)
    (hw : t.mem = s.mem.write a v) : t.decodeAt a =
      decode s.cfg.extraDigits v (s.mem.read (a + 1)) (s.mem.read (a + 2)) (s.mem.read (a + 3)) := by
  simp [State.decodeAt, hc, hw, Memory.read_write hm]

/-- Settles O50: the ADD's write is below the new extent, so the next step fetches it, and the decoder sees it. -/
theorem storedInstructionRunsNext : Obligations.StoredInstructionRunsNext := by
  intro s a b d r j hs hm ha hb hd haddr hr hj
  have hdst := State.dstAddr_of_resolves (e := s.grownBy (s.grownBy s.ext a) b) hd haddr
  have hcover := (((s.canReach_ext.grownBy a).grownBy b).dstAddr hdst).2
  have h0 := hd.nonneg _ haddr
  refine ⟨_, exec_add_of_resolves ha hb hd haddr hr, rfl, step_of_decodeAt ⟨hs, h0, ?_⟩ ?_⟩
  · rw [State.commit_pc, State.commit_ext]
    omega
  · rw [State.commit_pc, ← hj]
    exact State.decodeAt_write hm rfl rfl

end Sys2Proof.Machine

/-! PROOFS. The encoding family (30_encoding): the decoder described by the encoder, the words that decode and those that
do not, and what a step does with the word it fetches. -/

namespace Sys2Proof

/-! ### Instructions, their operands and the digits of their words (30_encoding R62, R65) -/

theorem Instr.wordDigits (i : Instr) : Laws.WordDigits.Statement i := by
  cases i with
  | add a b d => exact Laws.WordDigits.add a b d
  | mul a b d => exact Laws.WordDigits.mul a b d
  | inp d => exact Laws.WordDigits.inp d
  | out a => exact Laws.WordDigits.out a
  | jt a t => exact Laws.WordDigits.jt a t
  | jf a t => exact Laws.WordDigits.jf a t
  | lt a b d => exact Laws.WordDigits.lt a b d
  | eq a b d => exact Laws.WordDigits.eq a b d
  | arb a => exact Laws.WordDigits.arb a
  | hlt => exact Laws.WordDigits.hlt

theorem Opcode.count_le (op : Opcode) : op.count ≤ 3 := by cases op <;> decide

theorem Instr.word_lt (i : Instr) : i.word < 10 ^ (i.op.count + 2) := by
  obtain ⟨-, -, -, -, hlt⟩ := i.wordDigits
  exact hlt

theorem Instr.word_lt_100000 (i : Instr) : i.word < 100000 :=
  calc i.word < 10 ^ (i.op.count + 2) := i.word_lt
    _ ≤ 10 ^ 5 := Nat.pow_le_pow_right (by decide) (by have := i.op.count_le; omega)

theorem Instr.word_mod_100 (i : Instr) : i.word % 100 = i.op.number := by
  obtain ⟨hop, -⟩ := i.wordDigits
  exact hop

theorem Instr.lt_count_of_operand {i : Instr} {q : Nat} {o : Operand} (h : i.operands[q]? = some o) :
    q < i.op.count := by
  rw [← i.operands_length]
  exact (List.getElem?_eq_some_iff.1 h).1

theorem Instr.modeDigit_word {i : Instr} {q : Nat} {o : Operand} (h : i.operands[q]? = some o) :
    modeDigit i.word (q + 1) = o.mode.digit := by
  obtain ⟨-, h1, h2, h3, -⟩ := i.wordDigits
  have hq : q < 3 := Nat.lt_of_lt_of_le (lt_count_of_operand h) i.op.count_le
  match q, hq with
  | 0, _ => simpa [Laws.WordDigits.expected, h] using h1
  | 1, _ => simpa [Laws.WordDigits.expected, h] using h2
  | 2, _ => simpa [Laws.WordDigits.expected, h] using h3

/-- The digits of the operands are digits of the word's remainder by `10^(n+2)`. -/
theorem modeDigit_mod {n q : Nat} (w : Nat) (h : q < n) : modeDigit (w % 10 ^ (n + 2)) (q + 1) = modeDigit w (q + 1) := by
  obtain ⟨k, rfl⟩ := Nat.exists_eq_add_of_lt h
  have hpow : 10 ^ (q + k + 1 + 2) = 10 ^ (q + 1 + 1) * (10 * 10 ^ k) := by ring
  rw [modeDigit, hpow, Nat.mod_mul_right_div_self, Nat.mod_mul_right_mod, modeDigit]

/-- The opcode's digits are digits of the word's remainder by `10^(n+2)`. -/
theorem mod_pow_mod_100 (w n : Nat) : w % 10 ^ (n + 2) % 100 = w % 100 :=
  Nat.mod_mod_of_dvd w ⟨10 ^ n, by ring⟩

/-- The word of an instruction put together from the digits of `w` is `w` without the digits above its operands. -/
theorem Opcode.word_instr {op : Opcode} {w : Nat} (h : op.number = w % 100) (l1 l2 l3 : Cell) :
    (op.instr ⟨.ofDigit (modeDigit w 1), l1⟩ ⟨.ofDigit (modeDigit w 2), l2⟩ ⟨.ofDigit (modeDigit w 3), l3⟩).word =
      w % 10 ^ (op.count + 2) := by
  have digit (p : Nat) : (Mode.ofDigit (modeDigit w p)).digit = modeDigit w p :=
    Mode.digit_ofDigit (Nat.mod_lt _ (by decide))
  cases op
  all_goals
    simp only [Instr.word, Opcode.instr, Instr.operands, Instr.op, digit, h]
    simp only [modeDigit, Opcode.count]
    omega

theorem Instr.eq_instr_iff {i : Instr} {a b c : Operand} :
    i = i.op.instr a b c ↔ i.operands = [a, b, c].take i.op.count := by
  cases i <;> simp [Instr.op, Opcode.instr, Instr.operands, Opcode.count]

theorem Instr.literal_of_operand {i : Instr} {ls : List Cell} {q : Nat} {o : Operand}
    (hl : i.operands.map Operand.lit = ls.take i.op.count) (ho : i.operands[q]? = some o) : ls[q]? = some o.lit := by
  rw [← List.getElem?_take_of_lt (lt_count_of_operand ho), ← hl, List.getElem?_map, ho, Option.map_some]

/-- An instruction is determined by its word and its literals. -/
theorem Instr.eq_instr_of_word {i : Instr} {w : Nat} {l1 l2 l3 : Cell} (hw : w % 10 ^ (i.op.count + 2) = i.word)
    (hl : i.operands.map Operand.lit = [l1, l2, l3].take i.op.count) :
    i = i.op.instr ⟨.ofDigit (modeDigit w 1), l1⟩ ⟨.ofDigit (modeDigit w 2), l2⟩ ⟨.ofDigit (modeDigit w 3), l3⟩ := by
  have hmode : ∀ q o, i.operands[q]? = some o → Mode.ofDigit (modeDigit w (q + 1)) = o.mode := fun q o ho => by
    rw [← modeDigit_mod w (lt_count_of_operand ho), hw, modeDigit_word ho, Mode.ofDigit_digit]
  refine eq_instr_iff.2 (List.ext_getElem (by simp [operands_length, Opcode.count_le]) fun q hq _ => ?_)
  have ho := List.getElem?_eq_getElem hq
  have hq3 : q < 3 := Nat.lt_of_lt_of_le (lt_count_of_operand ho) i.op.count_le
  have heq : i.operands[q] = ⟨.ofDigit (modeDigit w (q + 1)), [l1, l2, l3][q]⟩ := by
    rw [hmode q _ ho, (List.getElem_eq_iff hq3).2 (literal_of_operand hl ho)]
  rw [List.getElem_take]
  match q, hq3 with
  | 0, _ | 1, _ | 2, _ => exact heq

/-! ### The decoder, described by the encoder (30_encoding R61 to R71) -/

/-- `w` is a word of `i`: non-negative, and the encoder's word of `i` up to digits above its operands, which `Fault`
excludes (30_encoding R64, R68). -/
def Instr.IsWord (i : Instr) (x : ExtraDigits) (w : Int) : Prop :=
  0 ≤ w ∧ (x = .fault → w < 10 ^ (i.op.count + 2)) ∧ w % 10 ^ (i.op.count + 2) = i.word

theorem Instr.word_lt_int (i : Instr) : (i.word : Int) < 10 ^ (i.op.count + 2) := mod_cast i.word_lt

theorem Instr.isWord_fault_iff {i : Instr} {w : Int} : i.IsWord .fault w ↔ w = i.word := by
  constructor
  · rintro ⟨h0, hlt, hw⟩
    rwa [Int.emod_eq_of_lt h0 (hlt rfl)] at hw
  · rintro rfl
    exact ⟨by omega, fun _ => i.word_lt_int, Int.emod_eq_of_lt (by omega) i.word_lt_int⟩

/-- The encoder's word is a word of the instruction under both settings. -/
theorem Instr.isWord_word (i : Instr) (x : ExtraDigits) : i.IsWord x i.word := by
  obtain ⟨h0, hlt, hw⟩ := isWord_fault_iff.2 (rfl : (i.word : Int) = i.word)
  exact ⟨h0, fun _ => hlt rfl, hw⟩

theorem Instr.isWord_ignore_iff {i : Instr} {w : Int} :
    i.IsWord .ignore w ↔ ∃ k : Nat, w = i.word + k * 10 ^ (i.op.count + 2) := by
  constructor
  · rintro ⟨h0, -, hw⟩
    refine ⟨(w / 10 ^ (i.op.count + 2)).toNat, ?_⟩
    rw [Int.toNat_of_nonneg (Int.ediv_nonneg h0 (by positivity)), ← hw, Int.emod_add_ediv_mul]
  · rintro ⟨k, rfl⟩
    refine ⟨by positivity, nofun, ?_⟩
    rw [Int.add_mul_emod_self_right, Int.emod_eq_of_lt (by omega) i.word_lt_int]

/-- The decoder answers the instructions that have the word and the literals. -/
theorem decode_eq_ok_iff {x : ExtraDigits} {w l1 l2 l3 : Cell} {i : Instr} :
    decode x w l1 l2 l3 = .ok i ↔
      i.IsWord x w.toInt ∧ i.operands.map Operand.lit = [l1, l2, l3].take i.op.count := by
  rw [decode_ok, Int.not_lt, Instr.IsWord, and_assoc]
  refine and_congr_right fun h0 => ?_
  rw [Cell.toInt_of_nonneg (Int.not_lt.2 h0)]
  norm_cast
  have hextra (op : Opcode) : ¬ (x = .fault ∧ w.toNat / 10 ^ (op.count + 2) ≠ 0) ↔
      (x = .fault → w.toNat < 10 ^ (op.count + 2)) := by
    simp [Nat.div_eq_zero_iff]
  constructor
  · rintro ⟨op, hop, hx, rfl⟩
    rw [Opcode.instr_op, Opcode.instr_operands]
    have hw := Opcode.word_instr (Opcode.number_of_ofNumber hop) l1 l2 l3
    exact ⟨⟨(hextra op).1 hx, hw.symm⟩, by rw [List.map_take]; rfl⟩
  · rintro ⟨⟨hx, hw⟩, hl⟩
    refine ⟨i.op, ?_, (hextra i.op).2 hx, i.eq_instr_of_word hw hl⟩
    rw [← mod_pow_mod_100 w.toNat i.op.count, hw, i.word_mod_100, Opcode.ofNumber_number]

/-- Settles O4: the mode digit of a word is that of its remainder, which is the instruction's own word. -/
theorem operandModesAreWordDigits : Obligations.OperandModesAreWordDigits := by
  intro x w l1 l2 l3 i h q o ho
  obtain ⟨⟨h0, -, hw⟩, hl⟩ := decode_eq_ok_iff.1 h
  refine ⟨?_, Instr.literal_of_operand hl ho⟩
  rw [Cell.toInt_of_nonneg (Int.not_lt.2 h0)] at hw ⊢
  norm_cast at hw ⊢
  rw [← Instr.modeDigit_word ho, ← hw, modeDigit_mod _ (Instr.lt_count_of_operand ho), modeDigit]

/-- Settles O5: both words have the remainder that is the word of the instruction. -/
theorem wordsThatDecodeAlike : Obligations.WordsThatDecodeAlike := by
  intro w w' l1 l2 l3 i h
  obtain ⟨⟨-, -, hw⟩, hl⟩ := decode_eq_ok_iff.1 h
  simp [decode_eq_ok_iff, Instr.IsWord, hw, hl]

/-! ### Lists of cells (30_encoding R60, R65, R71) -/

theorem take_getD_three {cells : List Cell} {n : Nat} (h3 : n ≤ 3) (hlen : n ≤ cells.length) :
    [cells.getD 0 0, cells.getD 1 0, cells.getD 2 0].take n = cells.take n := by
  refine List.ext_getElem (by simp; omega) fun q hq hq' => ?_
  have hq3 : q < 3 := by simp at hq; omega
  have hqlen : q < cells.length := by simp at hq'; omega
  rw [List.getElem_take, List.getElem_take, ← List.getD_eq_getElem cells 0 hqlen]
  match q, hq3 with
  | 0, _ | 1, _ | 2, _ => rfl

/-- A list of cells begins with an instruction when its first cell decodes to it and its literals do not end the list. -/
theorem decodeCells_cons_iff {x : ExtraDigits} {w : Cell} {cells rest : List Cell} {i : Instr} :
    decodeCells x (w :: cells) = .ok (i, rest) ↔
      decode x w (cells.getD 0 0) (cells.getD 1 0) (cells.getD 2 0) = .ok i ∧ i.op.count ≤ cells.length ∧
        rest = cells.drop i.op.count := by
  cases hd : decode x w (cells.getD 0 0) (cells.getD 1 0) (cells.getD 2 0) with
  | error r => simp only [decodeCells, hd, reduceCtorEq, false_and]
  | ok j =>
    simp only [decodeCells, hd, Except.ok.injEq]
    by_cases hlen : cells.length < j.op.count
    · simp only [if_pos hlen, reduceCtorEq, false_iff]
      rintro ⟨rfl, hle, -⟩
      omega
    · simp only [if_neg hlen, Except.ok.injEq, Prod.mk.injEq]
      constructor
      · rintro ⟨rfl, rfl⟩
        exact ⟨rfl, by omega, rfl⟩
      · rintro ⟨rfl, -, rfl⟩
        exact ⟨rfl, rfl⟩

/-- The cells that begin with `i`: a word of it, then its literals. -/
theorem decodeCells_eq_ok_iff {x : ExtraDigits} {w : Cell} {cells rest : List Cell} {i : Instr} :
    decodeCells x (w :: cells) = .ok (i, rest) ↔
      i.IsWord x w.toInt ∧ cells = i.operands.map Operand.lit ++ rest := by
  rw [decodeCells_cons_iff, decode_eq_ok_iff, and_assoc]
  refine and_congr_right fun _ => ?_
  constructor
  · rintro ⟨hl, hlen, rfl⟩
    rw [hl, take_getD_three i.op.count_le hlen, List.take_append_drop]
  · rintro rfl
    have hcount : (i.operands.map Operand.lit).length = i.op.count := by rw [List.length_map, i.operands_length]
    have hlen : i.op.count ≤ (i.operands.map Operand.lit ++ rest).length := by
      rw [List.length_append, hcount]
      omega
    rw [take_getD_three i.op.count_le hlen, List.take_left' hcount, List.drop_left' hcount]
    exact ⟨rfl, hlen, rfl⟩

theorem Instr.toInt_ofNat_word (i : Instr) : (BitVec.ofNat 64 i.word).toInt = i.word := by
  obtain ⟨hnat, hneg⟩ := Cell.ofNat_small (Nat.lt_trans i.word_lt_100000 (by decide))
  rw [Cell.toInt_of_nonneg hneg, hnat]

/-- Settles O2: the encoder's word is a word of the instruction, and its literals follow it. -/
theorem decodeOfEncodeReturnsInstruction : Obligations.DecodeOfEncodeReturnsInstruction := by
  intro x i rest
  refine decodeCells_eq_ok_iff.2 ⟨?_, rfl⟩
  rw [i.toInt_ofNat_word]
  exact i.isWord_word x

/-- Settles O3: under `Fault` the encoder's word is the instruction's only word. -/
theorem encodeOfDecodeReturnsCells : Obligations.EncodeOfDecodeReturnsCells := by
  intro cells rest i h
  cases cells with
  | nil => cases h
  | cons w cells =>
    obtain ⟨hw, rfl⟩ := decodeCells_eq_ok_iff.1 h
    have hword : BitVec.ofNat 64 i.word = w :=
      BitVec.eq_of_toInt_eq (by rw [i.toInt_ofNat_word, Instr.isWord_fault_iff.1 hw])
    rw [encode, hword, List.cons_append]

/-! ### The legal words (30_encoding R68) -/

theorem Operand.readable_iff {o : Operand} : o.readable = true ↔ (o.mode.digit : Int) ∈ [0, 1, 2] := by
  obtain ⟨m, l⟩ := o
  cases m with
  | illegal e => simp [Operand.readable, Mode.legal, Mode.digit]; omega
  | _ => simp [Operand.readable, Mode.legal, Mode.digit]

theorem Operand.writable_iff {o : Operand} : o.writable = true ↔ (o.mode.digit : Int) ∈ [0, 2] := by
  obtain ⟨m, l⟩ := o
  cases m with
  | illegal e => simp [Operand.writable, Mode.legal, Mode.digit]; omega
  | _ => simp [Operand.writable, Mode.legal, Mode.digit]

theorem exists_readable {m : Int} (l : Cell) (h : m ∈ [0, 1, 2]) :
    ∃ o : Operand, o.readable = true ∧ o.lit = l ∧ (o.mode.digit : Int) = m := by
  have hm : ((Mode.ofDigit m.toNat).digit : Int) = m := by
    simp only [List.mem_cons, List.not_mem_nil, or_false] at h
    rw [Mode.digit_ofDigit (by omega)]
    omega
  exact ⟨⟨.ofDigit m.toNat, l⟩, Operand.readable_iff.2 (by rw [hm]; exact h), rfl, hm⟩

theorem exists_writable {m : Int} (l : Cell) (h : m ∈ [0, 2]) :
    ∃ o : Operand, o.writable = true ∧ o.lit = l ∧ (o.mode.digit : Int) = m := by
  have hread : m ∈ [0, 1, 2] := by
    simp only [List.mem_cons, List.not_mem_nil, or_false] at h ⊢
    omega
  obtain ⟨o, -, hl, rfl⟩ := exists_readable l hread
  exact ⟨o, Operand.writable_iff.2 h, hl, rfl⟩

theorem isLegalWord_three {op : Int} {a b d : Operand} (hop : op ∈ [1, 2, 7, 8])
    (h : (a.readable && b.readable && d.writable) = true) :
    IsLegalWord (op + 100 * a.mode.digit + 1000 * b.mode.digit + 10000 * d.mode.digit) 3 := by
  simp only [Bool.and_eq_true, Operand.readable_iff, Operand.writable_iff] at h
  obtain ⟨⟨ha, hb⟩, hd⟩ := h
  exact ⟨_, _, _, _, rfl, .inl ⟨rfl, hop, ha, hb, hd⟩⟩

theorem isLegalWord_two {op : Int} {a t : Operand} (hop : op ∈ [5, 6]) (h : (a.readable && t.readable) = true) :
    IsLegalWord (op + 100 * a.mode.digit + 1000 * t.mode.digit) 2 := by
  simp only [Bool.and_eq_true, Operand.readable_iff] at h
  obtain ⟨ha, ht⟩ := h
  exact ⟨_, _, _, 0, by ring, .inr (.inr (.inr (.inl ⟨rfl, hop, ha, ht, rfl⟩)))⟩

theorem isLegalWord_one {op : Int} {a : Operand} (hop : op ∈ [4, 9]) (h : a.readable = true) :
    IsLegalWord (op + 100 * a.mode.digit) 1 :=
  ⟨_, _, 0, 0, by ring, .inr (.inr (.inl ⟨rfl, hop, Operand.readable_iff.1 h, rfl, rfl⟩))⟩

/-- The word of a well-formed instruction is a legal word of its operand count. -/
theorem Instr.isLegalWord {i : Instr} (h : i.wellFormed = true) : IsLegalWord i.word i.op.count := by
  cases i with
  | add a b d => exact isLegalWord_three (op := 1) (by decide) h
  | mul a b d => exact isLegalWord_three (op := 2) (by decide) h
  | lt a b d => exact isLegalWord_three (op := 7) (by decide) h
  | eq a b d => exact isLegalWord_three (op := 8) (by decide) h
  | jt a t => exact isLegalWord_two (op := 5) (by decide) h
  | jf a t => exact isLegalWord_two (op := 6) (by decide) h
  | out a => exact isLegalWord_one (op := 4) (by decide) h
  | arb a => exact isLegalWord_one (op := 9) (by decide) h
  | inp d => exact ⟨3, _, 0, 0, rfl, .inr (.inl ⟨rfl, rfl, Operand.writable_iff.1 h, rfl, rfl⟩)⟩
  | hlt => exact ⟨99, 0, 0, 0, rfl, .inr (.inr (.inr (.inr ⟨rfl, rfl, rfl, rfl, rfl⟩)))⟩

/-- A legal word is the word of a well-formed instruction with any literals. -/
theorem exists_wellFormed_of_isLegalWord {v : Int} {n : Nat} (h : IsLegalWord v n) (l1 l2 l3 : Cell) :
    ∃ i : Instr, i.wellFormed = true ∧ i.op.count = n ∧ v = i.word ∧
      i.operands.map Operand.lit = [l1, l2, l3].take i.op.count := by
  obtain ⟨op, m1, m2, m3, rfl, ⟨rfl, hop, h1, h2, h3⟩ | ⟨rfl, rfl, h1, rfl, rfl⟩ | ⟨rfl, hop, h1, rfl, rfl⟩ |
    ⟨rfl, hop, h1, h2, rfl⟩ | ⟨rfl, rfl, rfl, rfl, rfl⟩⟩ := h
  · obtain ⟨a, ha, rfl, rfl⟩ := exists_readable l1 h1
    obtain ⟨b, hb, rfl, rfl⟩ := exists_readable l2 h2
    obtain ⟨d, hd, rfl, rfl⟩ := exists_writable l3 h3
    have hwf : (a.readable && b.readable && d.writable) = true := by rw [ha, hb, hd]; rfl
    simp only [List.mem_cons, List.not_mem_nil, or_false] at hop
    obtain rfl | rfl | rfl | rfl := hop
    · exact ⟨.add a b d, hwf, rfl, rfl, rfl⟩
    · exact ⟨.mul a b d, hwf, rfl, rfl, rfl⟩
    · exact ⟨.lt a b d, hwf, rfl, rfl, rfl⟩
    · exact ⟨.eq a b d, hwf, rfl, rfl, rfl⟩
  · obtain ⟨d, hd, rfl, rfl⟩ := exists_writable l1 h1
    exact ⟨.inp d, hd, rfl, rfl, rfl⟩
  · obtain ⟨a, ha, rfl, rfl⟩ := exists_readable l1 h1
    simp only [List.mem_cons, List.not_mem_nil, or_false] at hop
    obtain rfl | rfl := hop
    · exact ⟨.out a, ha, rfl, rfl, rfl⟩
    · exact ⟨.arb a, ha, rfl, rfl, rfl⟩
  · obtain ⟨a, ha, rfl, rfl⟩ := exists_readable l1 h1
    obtain ⟨t, ht, rfl, rfl⟩ := exists_readable l2 h2
    have hwf : (a.readable && t.readable) = true := by rw [ha, ht]; rfl
    simp only [List.mem_cons, List.not_mem_nil, or_false] at hop
    obtain rfl | rfl := hop
    · exact ⟨.jt a t, hwf, rfl, rfl, rfl⟩
    · exact ⟨.jf a t, hwf, rfl, rfl, rfl⟩
  · exact ⟨.hlt, rfl, rfl, rfl, rfl⟩

/-- Settles O6: the legal words are the encoder's words of well-formed instructions, and these are the words that decode,
up to digits that `Ignore` allows. -/
theorem legalWordsAreTheListedOnes : Obligations.LegalWordsAreTheListedOnes := by
  intro w l1 l2 l3
  refine ⟨⟨?_, ?_⟩, ⟨?_, ?_⟩⟩
  · rintro ⟨i, hd, hwf⟩
    obtain ⟨hw, -⟩ := decode_eq_ok_iff.1 hd
    exact ⟨i.op.count, Instr.isWord_fault_iff.1 hw ▸ Instr.isLegalWord hwf⟩
  · rintro ⟨n, h⟩
    obtain ⟨i, hwf, -, hw, hl⟩ := exists_wellFormed_of_isLegalWord h l1 l2 l3
    exact ⟨i, decode_eq_ok_iff.2 ⟨Instr.isWord_fault_iff.2 hw, hl⟩, hwf⟩
  · rintro ⟨i, hd, hwf⟩
    obtain ⟨hw, -⟩ := decode_eq_ok_iff.1 hd
    obtain ⟨k, hk⟩ := Instr.isWord_ignore_iff.1 hw
    exact ⟨i.op.count, k, i.word, Instr.isLegalWord hwf, hk⟩
  · rintro ⟨n, k, v, h, hk⟩
    obtain ⟨i, hwf, rfl, rfl, hl⟩ := exists_wellFormed_of_isLegalWord h l1 l2 l3
    exact ⟨i, decode_eq_ok_iff.2 ⟨Instr.isWord_ignore_iff.2 ⟨k, hk⟩, hl⟩, hwf⟩

/-! ### What the decoder rejects, and what it does not (30_encoding R61, R64, R69) -/

theorem decode_of_negative {x : ExtraDigits} {w l1 l2 l3 : Cell} (h : w.toInt < 0) :
    decode x w l1 l2 l3 = .error .negativeWord := by
  rw [decode, if_pos h]

theorem Opcode.ofNumber_eq_none {n : Nat} (h : (n : Int) ∉ [1, 2, 3, 4, 5, 6, 7, 8, 9, 99]) :
    Opcode.ofNumber n = none := by
  cases ho : Opcode.ofNumber n with
  | none => rfl
  | some op =>
    refine absurd ?_ h
    rw [← Opcode.number_of_ofNumber ho]
    cases op <;> decide

theorem decode_of_unmapped {x : ExtraDigits} {w l1 l2 l3 : Cell} (h0 : 0 ≤ w.toInt)
    (h : Opcode.ofNumber (w.toNat % 100) = none) :
    decode x w l1 l2 l3 = .error (.unsupportedOpcode (w.toNat % 100)) := by
  simp only [decode, if_neg (Int.not_lt.2 h0), h]

theorem decode_of_extraDigits {w l1 l2 l3 : Cell} {op : Opcode} (h0 : 0 ≤ w.toInt)
    (hop : w.toNat % 100 = op.number) (h : w.toNat / 10 ^ (op.count + 2) ≠ 0) :
    decode .fault w l1 l2 l3 = .error (.extraDigits op) := by
  simp only [decode, if_neg (Int.not_lt.2 h0), hop, Opcode.ofNumber_number]
  exact if_pos ⟨trivial, h⟩

theorem exists_decode_ignore {w : Cell} {op : Opcode} (h0 : 0 ≤ w.toInt) (hop : w.toNat % 100 = op.number)
    (l1 l2 l3 : Cell) : ∃ i, i.op = op ∧ decode .ignore w l1 l2 l3 = .ok i :=
  ⟨_, Opcode.instr_op op _ _ _, decode_ok.2 ⟨Int.not_lt.2 h0, op, by rw [hop, Opcode.ofNumber_number], nofun, rfl⟩⟩

/-- Under `Ignore` a word whose opcode is `op` decodes as its remainder by `10^(n+2)` does. -/
theorem decode_ignore_mod {w : Cell} {op : Opcode} (h0 : 0 ≤ w.toInt) (hop : w.toNat % 100 = op.number)
    (l1 l2 l3 : Cell) :
    decode .ignore w l1 l2 l3 = decode .ignore (Cell.ofInt (w.toInt % 10 ^ (op.count + 2))) l1 l2 l3 := by
  obtain ⟨i, rfl, hi⟩ := exists_decode_ignore h0 hop l1 l2 l3
  obtain ⟨⟨-, -, hw⟩, hl⟩ := decode_eq_ok_iff.1 hi
  rw [hi, hw, Cell.ofInt, BitVec.ofInt_natCast, eq_comm]
  exact decode_eq_ok_iff.2 ⟨i.toInt_ofNat_word ▸ i.isWord_word _, hl⟩

end Sys2Proof

namespace Sys2Proof.Machine

/-! ### What a step does with the word it fetches (30_encoding R73, R74) -/

theorem step_of_reject {s : State} {r : DecodeReject} (hf : s.Fetches) (hd : s.decodeAt s.pc.toNat = .error r) :
    step s = .next (s.takeFault (s.rejectRecord r)) := by
  obtain ⟨hs, hpc, hext⟩ := hf
  simp only [step, hs, State.fetch, hd, if_neg (Int.not_lt.2 hpc), if_neg (Int.not_le.2 hext)]

/-- Settles O7: a ready machine whose pc is on a present cell passes the pc's checks and runs what it has decoded. -/
theorem stepRunsTheDecodedInstruction : Obligations.StepRunsTheDecodedInstruction :=
  fun _ _ => step_of_decodeAt

/-- Settles O8: the check of the pc comes before the fetch of a word. -/
theorem negativePcFaultsAtFetch : Obligations.NegativePcFaultsAtFetch := by
  intro s hs hpc
  simp only [step, hs, State.fetch, if_pos hpc]
  rfl

/-- Settles O32: `step` looks at the status before anything else. -/
theorem stoppedMachineDoesNotRun : Obligations.StoppedMachineDoesNotRun :=
  fun _ => ⟨step_of_halted, fun _ => step_of_faulted⟩

/-- Settles O10: the decoder rejects a negative word and an unmapped opcode, each with its record. -/
theorem unsupportedWordsFault : Obligations.UnsupportedWordsFault := by
  intro s w hf hw
  subst hw
  refine ⟨fun hneg => step_of_reject hf (decode_of_negative hneg), fun h0 hop => ?_, fun i hi => ?_⟩
  · have hnat : (s.mem.read s.pc.toNat).toInt % 100 = ((s.mem.read s.pc.toNat).toNat % 100 : Nat) := by
      rw [Cell.toInt_of_nonneg (Int.not_lt.2 h0)]
      norm_cast
    rw [hnat] at hop ⊢
    exact step_of_reject hf (decode_of_unmapped h0 (Opcode.ofNumber_eq_none hop))
  · obtain ⟨h0, op, hop, -, rfl⟩ := decode_ok.1 hi
    refine ⟨Int.not_lt.1 h0, ?_⟩
    rw [Opcode.instr_op, Opcode.number_of_ofNumber hop, Cell.toInt_of_nonneg h0]
    norm_cast

/-- Settles O11: under `Fault` the decoder rejects the word before the instruction runs; under `Ignore` it reads the
word's remainder. -/
theorem extraDigitsFollowTheParameter : Obligations.ExtraDigitsFollowTheParameter := by
  intro s w op hf hw h0 hop hextra
  subst hw
  rw [Cell.toInt_of_nonneg (Int.not_lt.2 h0)] at hop hextra
  norm_cast at hop hextra
  constructor
  · intro hx
    refine step_of_reject hf (?_ : s.decodeAt s.pc.toNat = .error (.extraDigits op))
    rw [State.decodeAt, hx, decode_of_extraDigits h0 hop hextra]
  · intro hx
    obtain ⟨i, hi, hd⟩ := exists_decode_ignore h0 hop (s.mem.read (s.pc.toNat + 1)) (s.mem.read (s.pc.toNat + 2))
      (s.mem.read (s.pc.toNat + 3))
    exact ⟨i, hi, step_of_decodeAt hf (by rw [State.decodeAt, hx, hd]), decode_ignore_mod h0 hop⟩

/-! ### A word placed at the pc (log 4) -/

theorem State.loadAtPc_fetches (s : State) (v : Cell) (vs : List Cell) : (s.loadAtPc (v :: vs)).Fetches := by
  refine ⟨rfl, ?_, ?_⟩ <;> simp [State.loadAtPc]

theorem State.decodeAt_loadAtPc {s : State} (hm : s.mem.wf = true) (w l1 l2 l3 : Cell) :
    (s.loadAtPc [w, l1, l2, l3]).decodeAt (s.loadAtPc [w, l1, l2, l3]).pc.toNat = decode s.cfg.extraDigits w l1 l2 l3 := by
  simp [State.decodeAt, State.loadAtPc, Memory.read_writeList hm, -Memory.writeList_cons]

theorem decode_of_decodeTableWord {nbits w : Nat} {i : Instr} (h : decodeTableWord nbits w = some i) :
    decode .ignore (tableCell nbits w 0) (tableCell nbits w 1) (tableCell nbits w 2) (tableCell nbits w 3) = .ok i := by
  unfold decodeTableWord at h
  split at h
  · next j hj => rw [← Option.some.inj h]; exact hj
  · cases h

/-- Settles O58: the placed cells are at the pc, and the decoder reads them there. -/
theorem placedWordRunsNext : Obligations.PlacedWordRunsNext := by
  intro s nbits w i hm hx hi
  refine step_of_decodeAt (s.loadAtPc_fetches _ _) ?_
  rw [State.withFetchWord, State.decodeAt_loadAtPc hm, hx, decode_of_decodeTableWord hi]

end Sys2Proof.Machine

/-! PROOFS. The ALU family (40_alu): what ADD, MUL, LT and EQ store, their overflow and their frame, and the spec's
example words. -/

namespace Sys2Proof.Machine

/-! ### An operand operation answers exactly on an operand that resolves (20_memory R50, R51) -/

/-- A read operand that answers resolves: otherwise it has a first fault event, and raises it. -/
theorem State.resolves_of_readOperand {s : State} {e p : Nat} {o : Operand} {r : Cell × Nat}
    (h : s.readOperand e p o = .ok r) : s.Resolves .read p o := by
  rw [← State.operandEvents_none, Option.eq_none_iff_forall_ne_some]
  intro t ht
  rw [State.readOperand_of_event ht] at h
  cases h

/-- A write operand that answers resolves: otherwise it has a first fault event, and raises it. -/
theorem State.resolves_of_dstAddr {s : State} {e p : Nat} {o : Operand} {r : Int × Nat}
    (h : s.dstAddr e p o = .ok r) : s.Resolves .write p o := by
  rw [← State.operandEvents_none, Option.eq_none_iff_forall_ne_some]
  intro t ht
  rw [State.dstAddr_of_event ht] at h
  cases h

/-! ### The pseudocode shared by the four instructions (40_alu R91 to R94) -/

section
variable {f : Int → Int → Int} {s t : State} {a b d : Operand}

/-- The state after an ALU instruction that stores `r` at `addr` (40_alu R91 to R94). -/
def State.afterAlu (s : State) (a b d : Operand) (addr : Int) (r : Cell) : State :=
  { s with mem := s.mem.write addr.toNat r, ext := s.extentAfter [a, b, d], pc := s.pc + 4 }

theorem State.extentAfter_of_resolves (ha : s.Resolves .read 1 a) (hb : s.Resolves .read 2 b)
    (hd : s.Resolves .write 3 d) :
    s.extentAfter [a, b, d] = s.grownBy (s.grownBy (s.grownBy s.ext a) b) d := by
  refine State.extentAfter_eq fun o ho => ?_
  obtain rfl | rfl | rfl : o = a ∨ o = b ∨ o = d := by simpa using ho
  · exact ha.nonneg
  · exact hb.nonneg
  · exact hd.nonneg

/-- On operands that resolve, a result that some cell holds is stored. -/
theorem aluResult_of_resolves {addr : Int} {r : Cell} (ha : s.Resolves .read 1 a) (hb : s.Resolves .read 2 b)
    (hd : s.Resolves .write 3 d) (haddr : s.effectiveAddress d = some addr)
    (hr : r.toInt = f (s.operandValue a).toInt (s.operandValue b).toInt) :
    aluResult f a b d s = .ok (s.afterAlu a b d addr r) := by
  refine aluResult_ok.2 ⟨_, _, _, _, _, _, r, State.readOperand_of_resolves ha, State.readOperand_of_resolves hb,
    State.dstAddr_of_resolves hd haddr, checkedResult_ok.2 hr, ?_⟩
  rw [State.afterAlu, State.extentAfter_of_resolves ha hb hd]
  rfl

/-- An ALU instruction that completes has a destination address, and changes what a store there changes. Its operands
resolve, so the pending extent it leaves is the one the claims compute. -/
theorem exists_of_aluResult_ok (h : aluResult f a b d s = .ok t) :
    ∃ addr r, s.effectiveAddress d = some addr ∧ 0 ≤ addr ∧ t = s.afterAlu a b d addr r := by
  obtain ⟨x, y, e1, e2, c, e3, r, hx, hy, hc, hr, -⟩ := aluResult_ok.1 h
  have ha := State.resolves_of_readOperand hx
  have hb := State.resolves_of_readOperand hy
  have hd := State.resolves_of_dstAddr hc
  obtain ⟨addr, haddr⟩ := State.write_effectiveAddress hd
  obtain ⟨rfl, -⟩ : s.operandValue a = x ∧ _ = e1 := by
    simpa using (State.readOperand_of_resolves ha).symm.trans hx
  obtain ⟨rfl, -⟩ : s.operandValue b = y ∧ _ = e2 := by
    simpa using (State.readOperand_of_resolves hb).symm.trans hy
  rw [aluResult_of_resolves ha hb hd haddr (checkedResult_ok.1 hr)] at h
  exact ⟨addr, r, haddr, hd.nonneg _ haddr, (Except.ok.inj h).symm⟩

/-- On operands that resolve, a result outside INT64 raises the overflow trap (40_alu R90). -/
theorem aluResult_of_overflow (ha : s.Resolves .read 1 a) (hb : s.Resolves .read 2 b) (hd : s.Resolves .write 3 d)
    (hr : ¬ fits64 (f (s.operandValue a).toInt (s.operandValue b).toInt)) :
    aluResult f a b d s = .error ⟨.arithmeticOverflow, none⟩ := by
  obtain ⟨addr, haddr⟩ := State.write_effectiveAddress hd
  simp only [aluResult, State.readOperand_of_resolves ha, State.readOperand_of_resolves hb,
    State.dstAddr_of_resolves hd haddr, checkedResult_error.2 ⟨hr, rfl⟩]

end

/-! ### What each instruction stores -/

/-- Settles O13: the operands resolve and the sum is the integer of a cell, so ADD stores that cell. -/
theorem addStoresTheExactSum : Obligations.AddStoresTheExactSum := by
  intro s a b d addr r ha hb hd haddr hr
  rw [State.extentAfter_of_resolves ha hb hd]
  exact exec_add_of_resolves ha hb hd haddr hr

/-- Settles O14: the operands resolve and the product is the integer of a cell, so MUL stores that cell. -/
theorem mulStoresTheExactProduct : Obligations.MulStoresTheExactProduct := by
  intro s a b d addr r ha hb hd haddr hr
  exact congrArg (s.finish .mul) (aluResult_of_resolves ha hb hd haddr hr)

/-- The cell 1 or 0 holds the truth value of a condition, so a comparison never overflows (00_scope R11). -/
theorem toInt_ite_eq_truthValue (c : Prop) [Decidable c] : (if c then 1 else 0 : Cell).toInt = truthValue c := by
  by_cases hc : c
  · simp [truthValue, hc]
  · simp [truthValue, hc]

/-- Settles O15: a truth value is the integer of a cell, so LT stores it on all operands that resolve. -/
theorem ltStoresTheSignedComparison : Obligations.LtStoresTheSignedComparison := by
  intro s a b d addr ha hb hd haddr
  exact congrArg (s.finish .lt) (aluResult_of_resolves ha hb hd haddr (toInt_ite_eq_truthValue _))

/-- Settles O16: cells are equal when their integers are, and the truth value is the integer of a cell. -/
theorem eqStoresTheEqualityTest : Obligations.EqStoresTheEqualityTest := by
  intro s a b d addr ha hb hd haddr
  simp only [← BitVec.toInt_inj]
  exact congrArg (s.finish .eq) (aluResult_of_resolves ha hb hd haddr (toInt_ite_eq_truthValue _))

/-! ### Overflow (40_alu R90, 43_base_halt R120) -/

theorem exec_arb_of_overflow {s : State} {a : Operand} (ha : s.Resolves .read 1 a)
    (hr : ¬ fits64 (s.rb.toInt + (s.operandValue a).toInt)) :
    exec (.arb a) s = .next (s.takeFault (s.recordAt .arb ⟨.arithmeticOverflow, none⟩)) := by
  simp only [exec, execArb, State.readOperand_of_resolves ha, checkedResult_error.2 ⟨hr, rfl⟩, State.finish]

/-- Settles O24: the result check fails after the operands have resolved, and the instruction ends with the fault
entry alone. -/
theorem overflowFaultsAndWritesNothing : Obligations.OverflowFaultsAndWritesNothing := by
  refine ⟨fun s a b d ha hb hd hr => ?_, fun s a b d ha hb hd hr => ?_, fun s a ha hr => ?_⟩
  · exact congrArg (s.finish .add) (aluResult_of_overflow ha hb hd hr)
  · exact congrArg (s.finish .mul) (aluResult_of_overflow ha hb hd hr)
  · exact exec_arb_of_overflow ha hr

/-! ### The frame (40_alu R91 to R95) -/

theorem exists_aluResult_of_mem {i : Instr} {a b d : Operand} (h : i ∈ [.add a b d, .mul a b d, .lt a b d, .eq a b d])
    (s : State) : ∃ f, exec i s = s.finish i.op (aluResult f a b d s) := by
  obtain rfl | rfl | rfl | rfl : i = .add a b d ∨ i = .mul a b d ∨ i = .lt a b d ∨ i = .eq a b d := by simpa using h
  · exact ⟨_, rfl⟩
  · exact ⟨_, rfl⟩
  · exact ⟨_, rfl⟩
  · exact ⟨_, rfl⟩

/-- Settles O33: the instruction completes with one write, at its destination's effective address, or ends with the fault
entry alone. -/
theorem aluFrame : Obligations.AluFrame := by
  intro s t a b d i hi h
  obtain ⟨f, hf⟩ := exists_aluResult_of_mem hi s
  obtain hok | ⟨tr, -, rfl⟩ := State.finish_next.1 (hf.symm.trans h)
  · obtain ⟨addr, r, haddr, h0, rfl⟩ := exists_of_aluResult_ok hok
    refine ⟨rfl, rfl, rfl, rfl, .inl rfl, .inr rfl, fun addr' haddr' c hc => ?_, fun hnone => ?_⟩
    · obtain rfl : addr = addr' := Option.some.inj (haddr.symm.trans haddr')
      exact Memory.read_write_other s.mem r (by omega)
    · rw [haddr] at hnone
      cases hnone
  · exact ⟨rfl, rfl, rfl, rfl, .inr ⟨_, rfl⟩, .inl rfl, fun _ _ _ _ => rfl, fun _ _ => rfl⟩

/-! ### The spec's example words -/

/-- Settles O1: the decoder evaluates each word to its instruction. -/
theorem specExampleWordsDecode : Obligations.SpecExampleWordsDecode :=
  ⟨rfl, rfl, rfl, rfl, rfl, rfl, rfl, rfl, rfl, rfl⟩

end Sys2Proof.Machine

/-! PROOFS. The input and output family (41_io): what IN and OUT do, the frames of IN and of the instructions that store
nothing, and that no step looks at the output queue or past the head of the input queue. -/

namespace Sys2Proof.Machine

/-! ### What a resolved operand answers, in the terms of the claims (20_memory R44, R50, R51) -/

section
variable {s : State} {e p e' : Nat} {o : Operand}

theorem State.readOperand_eq_ok_iff {v : Cell} :
    s.readOperand e p o = .ok (v, e') ↔ s.Resolves .read p o ∧ s.operandValue o = v ∧ s.grownBy e o = e' := by
  constructor
  · intro h
    have hr := State.resolves_of_readOperand h
    exact ⟨hr, by simpa using (State.readOperand_of_resolves hr).symm.trans h⟩
  · rintro ⟨hr, rfl, rfl⟩
    exact State.readOperand_of_resolves hr

theorem State.dstAddr_eq_ok_iff {a : Int} :
    s.dstAddr e p o = .ok (a, e') ↔
      s.Resolves .write p o ∧ s.effectiveAddress o = some a ∧ s.grownBy e o = e' := by
  constructor
  · intro h
    have hr := State.resolves_of_dstAddr h
    obtain ⟨b, hb⟩ := State.write_effectiveAddress hr
    obtain ⟨rfl, he⟩ : b = a ∧ s.grownBy e o = e' := by
      simpa using (State.dstAddr_of_resolves hr hb).symm.trans h
    exact ⟨hr, hb, he⟩
  · rintro ⟨hr, ha, rfl⟩
    exact State.dstAddr_of_resolves hr ha

theorem State.extentAfter_one {acc : Access} (h : s.Resolves acc p o) : s.extentAfter [o] = s.grownBy s.ext o := by
  refine State.extentAfter_eq fun o' ho' => ?_
  obtain rfl : o' = o := by simpa using ho'
  exact h.nonneg

theorem State.extentAfter_two {acc acc' : Access} {q : Nat} {o' : Operand} (h : s.Resolves acc p o)
    (h' : s.Resolves acc' q o') : s.extentAfter [o, o'] = s.grownBy (s.grownBy s.ext o) o' := by
  refine State.extentAfter_eq fun u hu => ?_
  obtain rfl | rfl : u = o ∨ u = o' := by simpa using hu
  · exact h.nonneg
  · exact h'.nonneg

end

/-! ### IN and OUT (41_io R102, R103) -/

/-- Settles O17: the destination resolves, so the head of the queue is stored at its address. -/
theorem inStoresTheOldestInput : Obligations.InStoresTheOldestInput := by
  intro s d addr v rest hq hd haddr
  rw [State.extentAfter_one hd]
  exact exec_inp_of_resolves hq hd haddr

/-- Settles O19: the operand resolves, so its value goes to the tail of the output queue. -/
theorem outAppendsTheValue : Obligations.OutAppendsTheValue := by
  intro s a ha
  rw [State.extentAfter_one ha]
  exact exec_out_of_resolves ha

theorem exec_inp_of_empty {s : State} {d : Operand} (hq : s.inq = []) : exec (.inp d) s = .next s := by
  simp only [exec, execInp, hq]

/-- A machine that suspends stops a resume without input at its first step (60_exceptions R137, R140). -/
theorem State.resume_of_suspends {s : State} (hsusp : s.suspends = true) (hstep : step s = .next s) (fuel : Nat) :
    s.resume (fuel + 1) [] = .returned s.outq .suspended (s.setOutq []) := by
  obtain ⟨⟨hs, -, -⟩, -, -⟩ := State.suspends_iff.1 hsusp
  have hstop : stopReason s s = some .suspended := by simp [stopReason, hs, hsusp]
  have hsame : s.setInq (s.inq ++ []) = s := by simp [State.setInq]
  simp only [State.resume, hs, hsame, resumeLoop, hstep, hstop]

/-- Settles O18: IN looks at the queue before its destination, and the state that fetches it is a suspension point. -/
theorem inSuspendsOnAnEmptyQueue : Obligations.InSuspendsOnAnEmptyQueue := by
  intro s d hq
  refine ⟨exec_inp_of_empty hq, fun hf hd => ?_⟩
  have hstep : step s = .next s := (step_of_decodeAt hf hd).trans (exec_inp_of_empty hq)
  exact ⟨hstep, State.resume_of_suspends (State.suspends_iff.2 ⟨hf, hq, d, hd⟩) hstep⟩

/-! ### The frame of IN (41_io R102) -/

/-- Everything an IN does: it suspends, faults, or stores the head of its queue at its destination's address. -/
theorem exec_inp_cases {d : Operand} {s t : State} (h : exec (.inp d) s = .next t) :
    t = s ∨ (∃ tr, t = s.takeFault (s.recordAt .inp tr)) ∨
      ∃ addr v rest, s.inq = v :: rest ∧ s.effectiveAddress d = some addr ∧ 0 ≤ addr ∧
        t = { s with mem := s.mem.write addr.toNat v, inq := rest, ext := s.extentAfter [d], pc := s.pc + 2 } := by
  cases hq : s.inq with
  | nil =>
    rw [exec_inp_of_empty hq, Host.Outcome.next.injEq] at h
    exact .inl h.symm
  | cons v rest =>
    simp only [exec, execInp, hq] at h
    obtain hok | ⟨tr, -, ht⟩ := State.finish_next.1 h
    · obtain ⟨addr, e, hdst, rfl⟩ := inpResult_ok.1 hok
      obtain ⟨hd, haddr, rfl⟩ := State.dstAddr_eq_ok_iff.1 hdst
      rw [State.extentAfter_one hd]
      exact .inr (.inr ⟨addr, v, rest, rfl, haddr, hd.nonneg _ haddr, rfl⟩)
    · exact .inr (.inl ⟨tr, ht⟩)

/-- Settles O34: of the three ways an IN can end, one stores, at its destination's effective address. -/
theorem inFrame : Obligations.InFrame := by
  intro s t d h
  obtain rfl | ⟨tr, rfl⟩ | ⟨addr, v, rest, hq, haddr, h0, rfl⟩ := exec_inp_cases h
  · exact ⟨rfl, rfl, rfl, .inl rfl, .inl rfl, .inl rfl, fun _ _ _ _ => rfl, fun _ _ => rfl⟩
  · exact ⟨rfl, rfl, rfl, .inl rfl, .inr ⟨_, rfl⟩, .inl rfl, fun _ _ _ _ => rfl, fun _ _ => rfl⟩
  · refine ⟨rfl, rfl, rfl, .inr (by rw [hq]; rfl), .inl rfl, .inr rfl, fun addr' haddr' c hc => ?_, fun hnone => ?_⟩
    · obtain rfl : addr = addr' := Option.some.inj (haddr.symm.trans haddr')
      exact Memory.read_write_other s.mem v (by omega)
    · rw [haddr] at hnone
      cases hnone

/-! ### The frame of the instructions that store nothing (41_io R103, 42_control R110 and R111, 43_base_halt R120) -/

/-- What OUT, JT, JF or ARB, here `i`, keeps when it completes: all but the extent, the pc, the output queue if it is OUT,
and the relative base if it is ARB. -/
structure State.CompletesNoStore (s : State) (i : Instr) (t : State) : Prop where
  cfg : t.cfg = s.cfg
  mem : t.mem = s.mem
  inq : t.inq = s.inq
  status : t.status = s.status
  outq : i.op ≠ .out → t.outq = s.outq
  rb : i.op ≠ .arb → t.rb = s.rb
  ext : t.ext = s.extentAfter i.operands

theorem exec_out_noStore {a : Operand} {s t : State} (h : exec (.out a) s = .next t) :
    (∃ tr, t = s.takeFault (s.recordAt .out tr)) ∨ s.CompletesNoStore (.out a) t := by
  obtain hok | ⟨tr, -, ht⟩ := State.finish_next.1 h
  · cases hr : s.readOperand s.ext 1 a with
    | error tr => simp [hr] at hok
    | ok xe =>
      obtain ⟨ha, -, he⟩ := State.readOperand_eq_ok_iff.1 hr
      simp only [hr, Except.ok.injEq] at hok
      subst hok
      exact .inr ⟨rfl, rfl, rfl, rfl, fun hne => absurd rfl hne, fun _ => rfl,
        he.symm.trans (State.extentAfter_one ha).symm⟩
  · exact .inl ⟨tr, ht⟩

theorem exec_arb_noStore {a : Operand} {s t : State} (h : exec (.arb a) s = .next t) :
    (∃ tr, t = s.takeFault (s.recordAt .arb tr)) ∨ s.CompletesNoStore (.arb a) t := by
  obtain hok | ⟨tr, -, ht⟩ := State.finish_next.1 h
  · cases hr : s.readOperand s.ext 1 a with
    | error tr => simp [hr] at hok
    | ok xe =>
      obtain ⟨ha, -, he⟩ := State.readOperand_eq_ok_iff.1 hr
      cases hc : checkedResult (s.rb.toInt + xe.1.toInt) with
      | error tr => simp [hr, hc] at hok
      | ok r =>
        simp only [hr, hc, Except.ok.injEq] at hok
        subst hok
        exact .inr ⟨rfl, rfl, rfl, rfl, fun _ => rfl, fun hne => absurd rfl hne,
          he.symm.trans (State.extentAfter_one ha).symm⟩
  · exact .inl ⟨tr, ht⟩

/-- A jump `i` of either kind, told by its operands and by the shared meaning it ends with. -/
theorem finish_jump_noStore {taken : Int → Bool} {a target : Operand} {i : Instr} {s t : State}
    (hi : i.operands = [a, target]) (h : s.finish i.op (jumpResult taken a target s) = .next t) :
    (∃ tr, t = s.takeFault (s.recordAt i.op tr)) ∨ s.CompletesNoStore i t := by
  obtain hok | ⟨tr, -, ht⟩ := State.finish_next.1 h
  · obtain ⟨x, y, e1, e2, hx, hy, rfl⟩ := jumpResult_ok.1 hok
    obtain ⟨ha, -, rfl⟩ := State.readOperand_eq_ok_iff.1 hx
    obtain ⟨htarget, -, rfl⟩ := State.readOperand_eq_ok_iff.1 hy
    exact .inr ⟨rfl, rfl, rfl, rfl, fun _ => rfl, fun _ => rfl, by rw [hi, State.extentAfter_two ha htarget]; rfl⟩
  · exact .inl ⟨tr, ht⟩

/-- Everything an instruction that is no IN and no ALU instruction can do: fault, complete without a store, or halt. -/
theorem exec_noStore_cases {i : Instr} {s t : State} (hi : i.op ∈ [.out, .jt, .jf, .arb, .hlt])
    (h : exec i s = .next t) :
    ((∃ tr, t = s.takeFault (s.recordAt i.op tr)) ∨ s.CompletesNoStore i t) ∨ (i = .hlt ∧ t = s.halt) := by
  cases i with
  | out a => exact .inl (exec_out_noStore h)
  | jt a target => exact .inl (finish_jump_noStore rfl h)
  | jf a target => exact .inl (finish_jump_noStore rfl h)
  | arb a => exact .inl (exec_arb_noStore h)
  | hlt => injection h with h; exact .inr ⟨rfl, h.symm⟩
  | add | mul | inp | lt | eq => simp [Instr.op] at hi

/-- Settles O35: a fault entry and a halt change the status alone, and completing without a store is the frame. -/
theorem nonStoringFrame : Obligations.NonStoringFrame := by
  intro s t i hi h
  obtain (⟨tr, rfl⟩ | hc) | ⟨rfl, rfl⟩ := exec_noStore_cases hi h
  · exact ⟨rfl, rfl, fun _ => rfl, fun _ => rfl, fun _ => rfl, .inr (.inl ⟨_, rfl⟩), .inl rfl⟩
  · exact ⟨hc.cfg, hc.inq, fun _ => by rw [hc.mem], hc.outq, hc.rb, .inl hc.status, .inr hc.ext⟩
  · exact ⟨rfl, rfl, fun _ => rfl, fun _ => rfl, fun _ => rfl, .inr (.inr ⟨rfl, rfl⟩), .inl rfl⟩

/-! ### A machine with more in its queues (41_io R100, R101)

`front` stands ahead of what the output queue holds and `back` behind what the input queue holds. Every operation
commutes with adding them, but an IN that waits: it would take its value from `back`. -/

/-- `s` with `front` ahead of its output queue and `back` behind its input queue. -/
def State.withQueued (front back : List Cell) (s : State) : State :=
  { s with inq := s.inq ++ back, outq := front ++ s.outq }

section
variable {front back : List Cell} {s t : State}

@[simp] theorem State.withQueued_cfg : (s.withQueued front back).cfg = s.cfg := rfl
@[simp] theorem State.withQueued_mem : (s.withQueued front back).mem = s.mem := rfl
@[simp] theorem State.withQueued_ext : (s.withQueued front back).ext = s.ext := rfl
@[simp] theorem State.withQueued_pc : (s.withQueued front back).pc = s.pc := rfl
@[simp] theorem State.withQueued_rb : (s.withQueued front back).rb = s.rb := rfl
@[simp] theorem State.withQueued_status : (s.withQueued front back).status = s.status := rfl
@[simp] theorem State.withQueued_inq : (s.withQueued front back).inq = s.inq ++ back := rfl
@[simp] theorem State.withQueued_outq : (s.withQueued front back).outq = front ++ s.outq := rfl

@[simp] theorem State.readOperand_withQueued (e p : Nat) (o : Operand) :
    (s.withQueued front back).readOperand e p o = s.readOperand e p o := rfl

@[simp] theorem State.dstAddr_withQueued (e p : Nat) (o : Operand) :
    (s.withQueued front back).dstAddr e p o = s.dstAddr e p o := rfl

@[simp] theorem State.memWrite_withQueued (e p : Nat) (a : Int) (v : Cell) :
    (s.withQueued front back).memWrite e p a v = s.memWrite e p a v := rfl

theorem State.finish_withQueued {op : Opcode} {r r' : Except Trap State}
    (hr : r' = r.map (State.withQueued front back)) (h : s.finish op r = .next t) :
    (s.withQueued front back).finish op r' = .next (t.withQueued front back) := by
  subst hr
  obtain rfl | ⟨tr, rfl, rfl⟩ := State.finish_next.1 h
  · rfl
  · rfl

theorem aluResult_withQueued (f : Int → Int → Int) (a b d : Operand) :
    aluResult f a b d (s.withQueued front back) = (aluResult f a b d s).map (State.withQueued front back) := by
  simp only [aluResult, State.readOperand_withQueued, State.dstAddr_withQueued, State.memWrite_withQueued,
    State.withQueued_ext]
  cases s.readOperand s.ext 1 a with
  | error tr => rfl
  | ok xe =>
    cases hy : s.readOperand xe.2 2 b with
    | error tr => simp only [hy]; rfl
    | ok ye =>
      cases hd : s.dstAddr ye.2 3 d with
      | error tr => simp only [hy, hd]; rfl
      | ok de =>
        cases hr : checkedResult (f xe.1.toInt ye.1.toInt) with
        | error tr => simp only [hy, hd, hr]; rfl
        | ok r =>
          simp only [hy, hd, hr, State.memWrite_of_dstAddr r hd]
          rfl

theorem jumpResult_withQueued (taken : Int → Bool) (a target : Operand) :
    jumpResult taken a target (s.withQueued front back) =
      (jumpResult taken a target s).map (State.withQueued front back) := by
  simp only [jumpResult, State.readOperand_withQueued, State.withQueued_ext]
  cases s.readOperand s.ext 1 a with
  | error tr => rfl
  | ok xe =>
    cases hy : s.readOperand xe.2 2 target with
    | error tr => simp only [hy]; rfl
    | ok ye => simp only [hy]; rfl

theorem inpResult_withQueued (d : Operand) (v : Cell) (rest : List Cell) :
    inpResult d v (rest ++ back) (s.withQueued front back) =
      (inpResult d v rest s).map (State.withQueued front back) := by
  simp only [inpResult, State.dstAddr_withQueued, State.memWrite_withQueued, State.withQueued_ext]
  cases hd : s.dstAddr s.ext 1 d with
  | error tr => rfl
  | ok de =>
    simp only [State.memWrite_of_dstAddr v hd]
    rfl

theorem exec_out_withQueued {a : Operand} (h : exec (.out a) s = .next t) :
    exec (.out a) (s.withQueued front back) = .next (t.withQueued front back) := by
  refine State.finish_withQueued ?_ h
  simp only [State.readOperand_withQueued, State.withQueued_ext, State.withQueued_outq, List.append_assoc]
  cases s.readOperand s.ext 1 a with
  | error tr => rfl
  | ok xe => rfl

theorem exec_arb_withQueued {a : Operand} (h : exec (.arb a) s = .next t) :
    exec (.arb a) (s.withQueued front back) = .next (t.withQueued front back) := by
  refine State.finish_withQueued ?_ h
  simp only [State.readOperand_withQueued, State.withQueued_ext, State.withQueued_rb]
  cases s.readOperand s.ext 1 a with
  | error tr => rfl
  | ok xe =>
    cases hr : checkedResult (s.rb.toInt + xe.1.toInt) with
    | error tr => simp only [hr]; rfl
    | ok r => simp only [hr]; rfl

/-- An IN takes the head of its queue, so only one that waits would see what stands behind. -/
theorem exec_inp_withQueued {d : Operand} (hwait : s.inq = [] → back = []) (h : exec (.inp d) s = .next t) :
    exec (.inp d) (s.withQueued front back) = .next (t.withQueued front back) := by
  cases hq : s.inq with
  | nil =>
    rw [exec_inp_of_empty hq, Host.Outcome.next.injEq] at h
    subst h
    exact exec_inp_of_empty (by rw [State.withQueued_inq, hq, hwait hq]; rfl)
  | cons v rest =>
    simp only [exec, execInp, hq] at h
    simp only [exec, execInp, State.withQueued_inq, hq, List.cons_append]
    exact State.finish_withQueued (inpResult_withQueued d v rest) h

theorem exec_withQueued {i : Instr} (hwait : (∃ d, i = .inp d) → s.inq = [] → back = []) (h : exec i s = .next t) :
    exec i (s.withQueued front back) = .next (t.withQueued front back) := by
  cases i with
  | add a b d => exact State.finish_withQueued (aluResult_withQueued _ a b d) h
  | mul a b d => exact State.finish_withQueued (aluResult_withQueued _ a b d) h
  | lt a b d => exact State.finish_withQueued (aluResult_withQueued _ a b d) h
  | eq a b d => exact State.finish_withQueued (aluResult_withQueued _ a b d) h
  | jt a target => exact State.finish_withQueued (jumpResult_withQueued _ a target) h
  | jf a target => exact State.finish_withQueued (jumpResult_withQueued _ a target) h
  | inp d => exact exec_inp_withQueued (hwait ⟨d, rfl⟩) h
  | out a => exact exec_out_withQueued h
  | arb a => exact exec_arb_withQueued h
  | hlt => injection h with h; subst h; rfl

/-- The implicit halt (43_base_halt R122). -/
theorem step_of_ext_le_pc (hs : s.status = .ready) (hpc : 0 ≤ s.pc) (hext : s.ext ≤ s.pc) :
    step s = .next s.halt := by
  simp only [step, hs, State.fetch, if_neg (Int.not_lt.2 hpc), if_pos hext]

/-- A step commutes with more in the queues, unless it suspends and would find its value behind the input queue. -/
theorem step_withQueued (hwait : s.suspends = true → back = []) (h : step s = .next t) :
    step (s.withQueued front back) = .next (t.withQueued front back) := by
  obtain ⟨hs, rfl⟩ | ⟨hs, hpc, rfl⟩ | ⟨hs, hpc, hext, rfl⟩ | ⟨hf, r, hd, rfl⟩ | ⟨hf, i, hd, hx⟩ := step_cases h
  · exact step_of_halted hs
  · exact negativePcFaultsAtFetch (s.withQueued front back) hs hpc
  · exact step_of_ext_le_pc (s := s.withQueued front back) hs hpc hext
  · exact step_of_reject (s := s.withQueued front back) hf hd
  · refine (step_of_decodeAt (s := s.withQueued front back) hf hd).trans (exec_withQueued ?_ hx)
    rintro ⟨d, rfl⟩ hq
    exact hwait (State.suspends_iff.2 ⟨hf, hq, d, hd⟩)

end

/-! ### A step stops with a fault on a crashed machine alone (60_exceptions R132, R133) -/

theorem exec_answers (i : Instr) (s : State) : ∃ t, exec i s = .next t := by
  cases i with
  | inp d =>
    cases hq : s.inq with
    | nil => exact ⟨s, exec_inp_of_empty hq⟩
    | cons v rest =>
      simp only [exec, execInp, hq]
      exact s.finish_answers .inp _
  | hlt => exact ⟨_, rfl⟩
  | add | mul | out | jt | jf | lt | eq | arb => exact s.finish_answers _ _

theorem step_answers_of_ready {s : State} (hs : s.status = .ready) : ∃ t, step s = .next t := by
  rw [step_of_ready hs]
  cases s.fetch with
  | stop t => exact ⟨t, rfl⟩
  | run i => exact exec_answers i s

theorem step_eq_fault_iff {s : State} {f : Fault} : step s = .fault f ↔ ∃ r, s.status = .faulted r ∧ f = .faulted r := by
  cases hs : s.status with
  | ready =>
    obtain ⟨t, ht⟩ := step_answers_of_ready hs
    simp [ht]
  | halted => simp [step_of_halted hs]
  | faulted r => simp [step_of_faulted hs, eq_comm]

/-! ### The queues in the machine's steps -/

/-- Settles O45: a step commutes with more output ahead of the queue, and a crashed machine answers its record. -/
theorem outputQueueIsNeverRead : Obligations.OutputQueueIsNeverRead := by
  refine fun s q => ⟨fun t h => ?_, fun f h => ?_⟩
  · simpa [State.withQueued] using step_withQueued (front := q) (back := []) (fun _ => rfl) h
  · obtain ⟨r, hs, rfl⟩ := step_eq_fault_iff.1 h
    exact step_of_faulted hs

/-- Settles O46: a step that does not suspend commutes with more input behind the queue. -/
theorem queuedInputWaitsItsTurn : Obligations.QueuedInputWaitsItsTurn := by
  intro s t ys hsusp h
  exact step_withQueued (front := []) (fun hs => absurd hs (by simp [hsusp])) h

end Sys2Proof.Machine

/-! PROOFS. The control family (42_control): what JT and JF do, how the next fetch checks a jump's target, and that the
other instructions do not redirect the pc. -/

namespace Sys2Proof.Machine

/-! ### JT and JF (42_control R110, R111) -/

/-- The state after a jump instruction of operands `a` and `target` that sets the pc to `pc` (42_control R110, R111). -/
def State.afterJump (s : State) (a target : Operand) (pc : Int) : State :=
  { s with ext := s.extentAfter [a, target], pc := pc }

section
variable {s : State} {a target : Operand}

theorem jumpResult_of_resolves (taken : Int → Bool) (ha : s.Resolves .read 1 a) (ht : s.Resolves .read 2 target) :
    jumpResult taken a target s = .ok (s.afterJump a target
      (if taken (s.operandValue a).toInt then (s.operandValue target).toInt else s.pc + 3)) := by
  refine jumpResult_ok.2 ⟨_, _, _, _, State.readOperand_of_resolves ha, State.readOperand_of_resolves ht, ?_⟩
  rw [State.afterJump, State.extentAfter_two ha ht]
  rfl

theorem exec_jt_of_resolves (ha : s.Resolves .read 1 a) (ht : s.Resolves .read 2 target) :
    exec (.jt a target) s = .next (s.afterJump a target
      (if s.operandValue a = 0 then s.pc + 3 else (s.operandValue target).toInt)) := by
  simp [exec, execJt, jumpResult_of_resolves _ ha ht, State.finish, ← BitVec.toInt_inj]

theorem exec_jf_of_resolves (ha : s.Resolves .read 1 a) (ht : s.Resolves .read 2 target) :
    exec (.jf a target) s = .next (s.afterJump a target
      (if s.operandValue a = 0 then (s.operandValue target).toInt else s.pc + 3)) := by
  simp [exec, execJf, jumpResult_of_resolves _ ha ht, State.finish, ← BitVec.toInt_inj]

/-- A jump that is taken sets the pc to its target's value, whatever that is (42_control R112). -/
theorem exec_of_taken {i : Instr} (ha : s.Resolves .read 1 a) (ht : s.Resolves .read 2 target)
    (hi : (i = .jt a target ∧ s.operandValue a ≠ 0) ∨ (i = .jf a target ∧ s.operandValue a = 0)) :
    exec i s = .next (s.afterJump a target (s.operandValue target).toInt) := by
  obtain ⟨rfl, hne⟩ | ⟨rfl, heq⟩ := hi
  · rw [exec_jt_of_resolves ha ht, if_neg hne]
  · rw [exec_jf_of_resolves ha ht, if_pos heq]

end

/-- Settles O20: both operands resolve, and the jump is taken on a cell that is not 0. -/
theorem jtJumpsWhenNotZero : Obligations.JtJumpsWhenNotZero :=
  fun _ _ _ => exec_jt_of_resolves

/-- Settles O21: both operands resolve, and the jump is taken on a cell that is 0. -/
theorem jfJumpsWhenZero : Obligations.JfJumpsWhenZero :=
  fun _ _ _ => exec_jf_of_resolves

/-- Settles O12: the taken jump leaves a ready machine, and the cases are those of the next fetch. -/
theorem jumpTargetIsCheckedAtTheNextFetch : Obligations.JumpTargetIsCheckedAtTheNextFetch := by
  intro s a target i hs ha ht hi
  refine ⟨_, exec_of_taken ha ht hi, rfl, ?_⟩
  generalize hu : s.afterJump a target (s.operandValue target).toInt = u
  have hready : u.status = .ready := hu ▸ hs
  refine ⟨negativePcFaultsAtFetch u hready, fun hext => step_of_ext_le_pc hready (by omega) hext,
    fun hpc hext j hd => step_of_decodeAt ⟨hready, hpc, hext⟩ hd, fun hpc hext r hd => ?_⟩
  exact ⟨u.rejectRecord r, u.rejectRecord_pc r, u.rejectRecord_word r, step_of_reject ⟨hready, hpc, hext⟩ hd⟩

/-! ### The pc after an instruction that is no jump (42_control R113, 10_state R25) -/

/-- `t` is ready with the pc `n` cells further than in `s`, or stopped with the pc of `s`. -/
def State.AdvancesOrStops (s : State) (n : Nat) (t : State) : Prop :=
  t.pc = if t.status = .ready then s.pc + n else s.pc

section
variable {s t : State} {n : Nat}

theorem State.advancesOrStops_of_ready (hs : t.status = .ready) (hpc : t.pc = s.pc + n) : s.AdvancesOrStops n t := by
  rw [State.AdvancesOrStops, if_pos hs, hpc]

theorem State.advancesOrStops_of_stopped (hs : t.status ≠ .ready) (hpc : t.pc = s.pc) : s.AdvancesOrStops n t := by
  rw [State.AdvancesOrStops, if_neg hs, hpc]

/-- An instruction that ends with `finish` advances the pc if completing does: its fault entry leaves the pc. -/
theorem State.advancesOrStops_of_finish {op : Opcode} {r : Except Trap State} (h : s.finish op r = .next t)
    (hr : ∀ u, r = .ok u → s.AdvancesOrStops n u) : s.AdvancesOrStops n t := by
  obtain hok | ⟨tr, -, rfl⟩ := State.finish_next.1 h
  · exact hr t hok
  · exact State.advancesOrStops_of_stopped (by simp) rfl

theorem aluResult_advances {f : Int → Int → Int} {a b d : Operand} (hs : s.status = .ready)
    (h : aluResult f a b d s = .ok t) : s.AdvancesOrStops 4 t := by
  obtain ⟨_, _, _, _, _, _, _, -, -, -, -, rfl⟩ := aluResult_ok.1 h
  exact State.advancesOrStops_of_ready hs rfl

theorem inpResult_advances {d : Operand} {v : Cell} {rest : List Cell} (hs : s.status = .ready)
    (h : inpResult d v rest s = .ok t) : s.AdvancesOrStops 2 t := by
  obtain ⟨_, _, -, rfl⟩ := inpResult_ok.1 h
  exact State.advancesOrStops_of_ready hs rfl

theorem exec_out_advances {a : Operand} (hs : s.status = .ready) (h : exec (.out a) s = .next t) :
    s.AdvancesOrStops 2 t := by
  refine State.advancesOrStops_of_finish h fun u hu => ?_
  split at hu
  · cases hu
  · cases hu
    exact State.advancesOrStops_of_ready hs rfl

theorem exec_arb_advances {a : Operand} (hs : s.status = .ready) (h : exec (.arb a) s = .next t) :
    s.AdvancesOrStops 2 t := by
  refine State.advancesOrStops_of_finish h fun u hu => ?_
  split at hu
  · cases hu
  · split at hu
    · cases hu
    · cases hu
      exact State.advancesOrStops_of_ready hs rfl

theorem exec_inp_advances {d : Operand} (hs : s.status = .ready) (hq : s.inq ≠ []) (h : exec (.inp d) s = .next t) :
    s.AdvancesOrStops 2 t := by
  obtain ⟨v, rest, hq⟩ := List.exists_cons_of_ne_nil hq
  simp only [exec, execInp, hq] at h
  exact State.advancesOrStops_of_finish h fun _ => inpResult_advances hs

/-- The pc after each instruction that is no jump and does not wait. -/
theorem exec_advancesOrStops {i : Instr} (hs : s.status = .ready) (h : exec i s = .next t) (hjt : i.op ≠ .jt)
    (hjf : i.op ≠ .jf) (hwait : s.mustWait i = false) : s.AdvancesOrStops i.op.length t := by
  cases i with
  | add | mul | lt | eq => exact State.advancesOrStops_of_finish h fun _ => aluResult_advances hs
  | inp d => exact exec_inp_advances hs (by simpa [State.mustWait, Instr.op] using hwait) h
  | out a => exact exec_out_advances hs h
  | arb a => exact exec_arb_advances hs h
  | jt a target => exact absurd rfl hjt
  | jf a target => exact absurd rfl hjf
  | hlt =>
    injection h with h
    subst h
    exact State.advancesOrStops_of_stopped (by simp) rfl

/-- An instruction that must wait changes nothing (60_exceptions R137). -/
theorem exec_of_mustWait {i : Instr} (hwait : s.mustWait i = true) : exec i s = .next s := by
  obtain ⟨hop, hq⟩ : i.op = .inp ∧ s.inq = [] := by simpa [State.mustWait] using hwait
  cases i with
  | inp d => exact exec_inp_of_empty hq
  | add | mul | out | jt | jf | lt | eq | arb | hlt => simp [Instr.op] at hop

end

/-- Settles O42: an IN that waits leaves the state as it is; every other instruction but the jumps advances or stops. -/
theorem onlyJumpsRedirectThePc : Obligations.OnlyJumpsRedirectThePc := by
  intro s t i hs h hjt hjf
  cases hwait : s.mustWait i with
  | true =>
    obtain rfl : s = t := by simpa using (exec_of_mustWait hwait).symm.trans h
    simp
  | false => simpa [State.AdvancesOrStops] using exec_advancesOrStops hs h hjt hjf hwait

end Sys2Proof.Machine

/-! PROOFS. The base and halt family (43_base_halt): what ARB does, that HLT and the implicit halt stop a resume for good,
and that every step but a crashed machine's answers a next state. -/

namespace Sys2Proof.Machine

/-! ### ARB (43_base_halt R120) -/

/-- On an operand that resolves, a sum that some cell holds becomes the relative base. -/
theorem exec_arb_of_resolves {s : State} {a : Operand} {r : Cell} (ha : s.Resolves .read 1 a)
    (hr : r.toInt = s.rb.toInt + (s.operandValue a).toInt) :
    exec (.arb a) s = .next ((s.setRb r).commit (s.grownBy s.ext a) (s.pc + 2)) := by
  simp only [exec, execArb, State.readOperand_of_resolves ha, checkedResult_ok.2 hr, State.finish]

/-- Settles O22: the operand resolves and the sum is the integer of a cell, so ARB makes that cell the base. -/
theorem arbAddsToTheRelativeBase : Obligations.ArbAddsToTheRelativeBase := by
  intro s a r ha hr
  rw [State.extentAfter_one ha]
  exact exec_arb_of_resolves ha hr

/-! ### The halt (43_base_halt R121, R122) -/

theorem exec_hlt (s : State) : exec .hlt s = .next s.halt := rfl

/-- A machine whose next step halts stops a resume without input at that step: it hands over the output queue and keeps
the input queue (60_exceptions R140). -/
theorem State.resume_of_step_halt {s : State} (hs : s.status = .ready) (hstep : step s = .next s.halt) (fuel : Nat) :
    s.resume (fuel + 1) [] = .returned s.outq .halted (s.halt.setOutq []) := by
  have hstop : stopReason s s.halt = some .halted := rfl
  have hsame : s.setInq (s.inq ++ []) = s := by simp [State.setInq]
  simp only [State.resume, hs, hsame, resumeLoop, hstep, hstop, State.halt_outq]

/-- Settles O23: the step that fetches HLT halts, which stops the resume; a halted machine returns from every later
one at once. -/
theorem hltHaltsForGood : Obligations.HltHaltsForGood := by
  refine fun s => ⟨exec_hlt s, fun hf hd fuel => ?_, State.resume_of_halted rfl⟩
  have hstep : step s = .next s.halt := (step_of_decodeAt hf hd).trans (exec_hlt s)
  exact State.resume_of_step_halt hf.1 hstep fuel

/-- Settles O9: a fetch at or beyond the extent halts as HLT does, and the halt stops the resume. -/
theorem implicitHaltActsAsHlt : Obligations.ImplicitHaltActsAsHlt := by
  intro s hs hpc hext
  have hstep : step s = .next s.halt := step_of_ext_le_pc hs hpc hext
  exact ⟨hstep.trans (exec_hlt s).symm, hstep, fun fuel => ⟨State.resume_of_step_halt hs hstep fuel, rfl⟩⟩

/-! ### Every step answers, but that of a crashed machine (60_exceptions R132, R137) -/

/-- Settles O40: a ready machine's step answers, a halted machine rests, and a faulted one is excluded. -/
theorem stepAnswersUnlessCrashed : Obligations.StepAnswersUnlessCrashed := by
  intro s hcrash
  cases hs : s.status with
  | ready => exact step_answers_of_ready hs
  | halted => exact ⟨s, step_of_halted hs⟩
  | faulted f => exact absurd hs (hcrash f)

end Sys2Proof.Machine

/-! PROOFS. The exceptions family (60_exceptions): which fault an instruction takes, when a resume stops and what it
returns, and what each host transaction does. -/

namespace Sys2Proof.Machine

/-! ### The invariant across the host's transactions (60_exceptions R140 to R145) -/

/-- An accepted poke writes its cell and leaves the extent an access there leaves (60_exceptions R144). -/
theorem State.poke_eq_some {s : State} {a : Int} (h0 : 0 ≤ a) (hl : a < s.addrLimit) (v : Cell) :
    s.poke a v = some ((s.setMem (s.mem.write a.toNat v)).setExt (s.grown s.ext a)) := by
  cases hp : s.cfg.memPolicy with
  | grow => simp [State.poke, h0, hl, State.grown_eq s s.ext h0, hp]
  | fixed => simp [State.poke, h0, hl, State.grown_eq s s.ext h0, hp]

theorem State.Inv.of_poke {s t : State} {a : Int} {v : Cell} (hp : s.poke a v = some t) (h : s.Inv) : t.Inv := by
  obtain ⟨h0, hl, -⟩ := State.poke_some hp
  obtain rfl : _ = t := Option.some.inj ((State.poke_eq_some h0 hl v).symm.trans hp)
  have hcover : a.toNat < s.grown s.ext a := s.canReach_ext.lt_grown h0 hl
  have hold : ∀ e ∈ s.mem, e.1 < s.grown s.ext a :=
    fun e he => Nat.lt_of_lt_of_le (h.memPresent e he) (s.le_grown s.ext a)
  exact { h with
    memForm := Memory.wf_write h.memForm a.toNat v
    memPresent := Memory.forall_write (P := fun e => e.1 < s.grown s.ext a) hcover hold
    fixedExt := fun hfixed => ((s.canReach_ext.grown a).fixed hfixed).trans_le (h.fixedExt hfixed) }

theorem State.Inv.setOutq {s : State} (h : s.Inv) (q : List Cell) : (s.setOutq q).Inv := { h with }

theorem State.Inv.setInq {s : State} (h : s.Inv) (q : List Cell) : (s.setInq q).Inv := { h with }

/-- Settles O38: steps, changes of a queue and pokes keep the invariant, and a transaction is made of these; a resume's
loop is the induction of `resumeLoop_rel`. -/
theorem transactionsKeepTheInvariant : Obligations.TransactionsKeepTheInvariant := fun s fuel tx =>
  State.transact_rel (P := fun s t => s.Inv → t.Inv) (fun _ => id) (fun _ _ _ hst htu => htu ∘ hst)
    (fun _ _ hstep h => stepKeepsTheInvariant _ _ h hstep) (fun _ q h => h.setOutq q) (fun _ q h => h.setInq q)
    (fun _ _ _ _ => State.Inv.of_poke) s fuel tx

/-! ### The first fault event (60_exceptions R135) -/

theorem firstEvent_append_eq_some {l m : List (Bool × Trap)} {t : Trap} :
    firstEvent (l ++ m) = some t ↔ firstEvent l = some t ∨ firstEvent l = none ∧ firstEvent m = some t := by
  rw [firstEvent_append, Option.or_eq_some_iff]

theorem firstEvent_append_eq_none {l m : List (Bool × Trap)} :
    firstEvent (l ++ m) = none ↔ firstEvent l = none ∧ firstEvent m = none := by
  rw [firstEvent_append, Option.or_eq_none_iff]

theorem firstEvent_overflow_eq_some {r : Int} {t : Trap} :
    firstEvent [overflowEvent r] = some t ↔ ¬ fits64 r ∧ t = ⟨.arithmeticOverflow, none⟩ := by
  simp only [overflowEvent, firstEvent_cons, firstEvent_nil, Bool.not_eq_true', decide_eq_false_iff_not,
    Option.ite_none_right_eq_some, Option.some.injEq, eq_comm (b := t)]

theorem firstEvent_overflow_eq_none {r : Int} : firstEvent [overflowEvent r] = none ↔ fits64 r := by
  simp only [overflowEvent, firstEvent_cons, firstEvent_nil, Bool.not_eq_true', decide_eq_false_iff_not,
    ite_eq_right_iff, reduceCtorEq, imp_false, not_not]

section
variable {s : State} {a b d target : Operand} {t : Trap}

/-- Two read operands have no event exactly when both resolve. -/
theorem State.readEvents_none :
    firstEvent (s.operandEvents .read 1 a ++ s.operandEvents .read 2 b) = none ↔
      s.Resolves .read 1 a ∧ s.Resolves .read 2 b := by
  simp only [firstEvent_append_eq_none, State.operandEvents_none]

/-- The operands of an ALU instruction have no event exactly when all three resolve. -/
theorem State.aluEvents_none :
    firstEvent (s.operandEvents .read 1 a ++ s.operandEvents .read 2 b ++ s.operandEvents .write 3 d) = none ↔
      (s.Resolves .read 1 a ∧ s.Resolves .read 2 b) ∧ s.Resolves .write 3 d := by
  simp only [firstEvent_append_eq_none, State.operandEvents_none]

theorem aluResult_of_operandEvent (f : Int → Int → Int)
    (h : firstEvent (s.operandEvents .read 1 a ++ s.operandEvents .read 2 b ++ s.operandEvents .write 3 d) = some t) :
    aluResult f a b d s = .error t := by
  obtain hab | ⟨hab, hd⟩ := firstEvent_append_eq_some.1 h
  · obtain ha | ⟨ha, hb⟩ := firstEvent_append_eq_some.1 hab
    · simp only [aluResult, State.readOperand_of_event ha]
    · have ha := State.operandEvents_none.1 ha
      simp only [aluResult, State.readOperand_of_resolves ha, State.readOperand_of_event hb]
  · obtain ⟨ha, hb⟩ := State.readEvents_none.1 hab
    simp only [aluResult, State.readOperand_of_resolves ha, State.readOperand_of_resolves hb, State.dstAddr_of_event hd]

/-- The events of ADD and MUL: those of their operands, then the overflow of their result. -/
theorem aluResult_of_event {f : Int → Int → Int}
    (h : firstEvent (s.operandEvents .read 1 a ++ s.operandEvents .read 2 b ++ s.operandEvents .write 3 d ++
      [overflowEvent (f (s.operandValue a).toInt (s.operandValue b).toInt)]) = some t) :
    aluResult f a b d s = .error t := by
  obtain hoperand | ⟨hnone, hover⟩ := firstEvent_append_eq_some.1 h
  · exact aluResult_of_operandEvent f hoperand
  · obtain ⟨⟨ha, hb⟩, hd⟩ := State.aluEvents_none.1 hnone
    obtain ⟨hr, rfl⟩ := firstEvent_overflow_eq_some.1 hover
    exact aluResult_of_overflow ha hb hd hr

theorem jumpResult_of_event (taken : Int → Bool)
    (h : firstEvent (s.operandEvents .read 1 a ++ s.operandEvents .read 2 target) = some t) :
    jumpResult taken a target s = .error t := by
  obtain ha | ⟨ha, ht⟩ := firstEvent_append_eq_some.1 h
  · simp only [jumpResult, State.readOperand_of_event ha]
  · have ha := State.operandEvents_none.1 ha
    simp only [jumpResult, State.readOperand_of_resolves ha, State.readOperand_of_event ht]

theorem exec_arb_of_event (h : firstEvent (s.events (.arb a)) = some t) :
    exec (.arb a) s = .next (s.takeFault (s.recordAt .arb t)) := by
  obtain ha | ⟨ha, hover⟩ := firstEvent_append_eq_some.1 h
  · simp only [exec, execArb, State.readOperand_of_event ha, State.finish]
  · obtain ⟨hr, rfl⟩ := firstEvent_overflow_eq_some.1 hover
    exact exec_arb_of_overflow (State.operandEvents_none.1 ha) hr

theorem State.inq_ne_nil_of_not_mustWait (h : s.mustWait (.inp d) = false) : s.inq ≠ [] := by
  simpa [State.mustWait, Instr.op] using h

end

/-- Settles O25: the pseudocode checks each operand in order and the result last, so it raises the first event; `finish`
then enters the fault and drops all effects. -/
theorem firstEventIsTheFaultTaken : Obligations.FirstEventIsTheFaultTaken := by
  intro s i t hwait h
  change exec i s = .next (s.takeFault (s.recordAt i.op t))
  cases i with
  | add a b d => exact congrArg (s.finish .add) (aluResult_of_event h)
  | mul a b d => exact congrArg (s.finish .mul) (aluResult_of_event h)
  | lt a b d => exact congrArg (s.finish .lt) (aluResult_of_operandEvent _ h)
  | eq a b d => exact congrArg (s.finish .eq) (aluResult_of_operandEvent _ h)
  | jt a target => exact congrArg (s.finish .jt) (jumpResult_of_event _ h)
  | jf a target => exact congrArg (s.finish .jf) (jumpResult_of_event _ h)
  | inp d => exact exec_inp_of_event (State.inq_ne_nil_of_not_mustWait hwait) h
  | out a => exact exec_out_of_event h
  | arb a => exact exec_arb_of_event h
  | hlt => cases h

/-! ### No fault event (60_exceptions R130, R135) -/

/-- An ALU instruction without an operand event whose result is in INT64 completes. -/
theorem exists_aluResult_of_fits64 {s : State} {a b d : Operand} (f : Int → Int → Int)
    (hnone : firstEvent (s.operandEvents .read 1 a ++ s.operandEvents .read 2 b ++ s.operandEvents .write 3 d) = none)
    (hr : fits64 (f (s.operandValue a).toInt (s.operandValue b).toInt)) :
    ∃ addr r, aluResult f a b d s = .ok (s.afterAlu a b d addr r) := by
  obtain ⟨⟨ha, hb⟩, hd⟩ := State.aluEvents_none.1 hnone
  obtain ⟨addr, haddr⟩ := State.write_effectiveAddress hd
  exact ⟨addr, _, aluResult_of_resolves ha hb hd haddr (Cell.toInt_ofInt hr)⟩

theorem fits64_truthValue (c : Bool) : fits64 (truthValue c) := by
  cases c <;> decide

/-- Settles O26: without an event every operand resolves and every result is in INT64, so the instruction completes. -/
theorem noEventMeansNoFault : Obligations.NoEventMeansNoFault := by
  intro s i hwait h
  cases i with
  | add a b d =>
    obtain ⟨hnone, hover⟩ := firstEvent_append_eq_none.1 h
    have hr := firstEvent_overflow_eq_none.1 hover
    obtain ⟨addr, r, hok⟩ := exists_aluResult_of_fits64 (fun x y => x + y) hnone hr
    exact ⟨_, congrArg (s.finish .add) hok, rfl⟩
  | mul a b d =>
    obtain ⟨hnone, hover⟩ := firstEvent_append_eq_none.1 h
    have hr := firstEvent_overflow_eq_none.1 hover
    obtain ⟨addr, r, hok⟩ := exists_aluResult_of_fits64 (fun x y => x * y) hnone hr
    exact ⟨_, congrArg (s.finish .mul) hok, rfl⟩
  | lt a b d =>
    obtain ⟨addr, r, hok⟩ := exists_aluResult_of_fits64 (fun x y => truthValue (x < y)) h (fits64_truthValue _)
    exact ⟨_, congrArg (s.finish .lt) hok, rfl⟩
  | eq a b d =>
    obtain ⟨addr, r, hok⟩ := exists_aluResult_of_fits64 (fun x y => truthValue (x = y)) h (fits64_truthValue _)
    exact ⟨_, congrArg (s.finish .eq) hok, rfl⟩
  | jt a target =>
    obtain ⟨ha, ht⟩ := State.readEvents_none.1 h
    exact ⟨_, exec_jt_of_resolves ha ht, rfl⟩
  | jf a target =>
    obtain ⟨ha, ht⟩ := State.readEvents_none.1 h
    exact ⟨_, exec_jf_of_resolves ha ht, rfl⟩
  | inp d =>
    have hd := State.operandEvents_none.1 h
    obtain ⟨v, rest, hq⟩ := List.exists_cons_of_ne_nil (State.inq_ne_nil_of_not_mustWait hwait)
    obtain ⟨addr, haddr⟩ := State.write_effectiveAddress hd
    exact ⟨_, exec_inp_of_resolves hq hd haddr, rfl⟩
  | out a => exact ⟨_, exec_out_of_resolves (State.operandEvents_none.1 h), rfl⟩
  | arb a =>
    obtain ⟨ha, hover⟩ := firstEvent_append_eq_none.1 h
    have hr := Cell.toInt_ofInt (firstEvent_overflow_eq_none.1 hover)
    exact ⟨_, exec_arb_of_resolves (State.operandEvents_none.1 ha) hr, rfl⟩
  | hlt => exact ⟨_, exec_hlt s, rfl⟩

/-! ### When a step ends a resume (60_exceptions R137, R139) -/

section
variable {front back : List Cell} {s t u v : State} {r : StopReason} {n fuel : Nat}

theorem stopReason_eq_none_iff : stopReason s t = none ↔ t.status = .ready ∧ s.suspends = false := by
  cases ht : t.status <;> simp [stopReason, ht]

theorem stopReason_eq_suspended_iff :
    stopReason s t = some .suspended ↔ t.status = .ready ∧ s.suspends = true := by
  cases ht : t.status <;> simp [stopReason, ht]

/-- A step that is no stop started on a ready machine: a halted one rests, which is a stop. -/
theorem ready_of_stopReason_none (hstep : step s = .next t) (hstop : stopReason s t = none) : s.status = .ready := by
  obtain ⟨ht, -⟩ := stopReason_eq_none_iff.1 hstop
  cases hs : s.status with
  | ready => rfl
  | halted =>
    obtain rfl : s = t := by simpa using (step_of_halted hs).symm.trans hstep
    simp [hs] at ht
  | faulted f => simp [step_of_faulted hs] at hstep

/-- A suspension changes nothing (60_exceptions R137). -/
theorem step_of_suspends (h : s.suspends = true) : step s = .next s := by
  obtain ⟨hf, hq, d, hd⟩ := State.suspends_iff.1 h
  exact (step_of_decodeAt hf hd).trans (exec_inp_of_empty hq)

theorem eq_of_suspended_stop (hstep : step s = .next t) (hstop : stopReason s t = some .suspended) : t = s := by
  obtain ⟨-, hsusp⟩ := stopReason_eq_suspended_iff.1 hstop
  simpa using hstep.symm.trans (step_of_suspends hsusp)

theorem stopsWith_of_stopReason (hstep : step s = .next t) (hstop : stopReason s t = some r) : StopsWith s t r := by
  cases ht : t.status with
  | halted =>
    obtain rfl : .halted = r := by simpa [stopReason, ht] using hstop
    exact ht
  | faulted f =>
    obtain rfl : .faulted f = r := by simpa [stopReason, ht] using hstop
    exact ht
  | ready =>
    obtain ⟨hsusp, rfl⟩ : s.suspends = true ∧ .suspended = r := by simpa [stopReason, ht] using hstop
    exact ⟨eq_of_suspended_stop hstep hstop, State.suspends_iff.1 hsusp⟩

/-- More in the queues changes whether a machine suspends only where a suspension would find input. -/
theorem State.suspends_withQueued (hwait : s.suspends = true → back = []) :
    (s.withQueued front back).suspends = s.suspends := by
  rw [Bool.eq_iff_iff]
  constructor
  · intro h
    obtain ⟨hf, hq, hd⟩ := State.suspends_iff.1 h
    exact State.suspends_iff.2 ⟨hf, (List.append_eq_nil_iff.1 hq).1, hd⟩
  · intro h
    obtain ⟨hf, hq, hd⟩ := State.suspends_iff.1 h
    exact State.suspends_iff.2 ⟨hf, List.append_eq_nil_iff.2 ⟨hq, hwait h⟩, hd⟩

theorem stopReason_withQueued (hwait : s.suspends = true → back = []) :
    stopReason (s.withQueued front back) (t.withQueued front back) = stopReason s t := by
  simp only [stopReason, State.withQueued_status, State.suspends_withQueued hwait]

/-! ### The run of a resume (60_exceptions R140): steps that are no stops, then one that is -/

/-- `n` steps lead from the first state to the second, none of them a stop. -/
inductive StepsOn : Nat → State → State → Prop where
  | refl (s : State) : StepsOn 0 s s
  | head {n : Nat} {s t u : State} (hstep : step s = .next t) (hstop : stopReason s t = none) (h : StepsOn n t u) :
      StepsOn (n + 1) s u

/-- `n` steps lead from `s` to `u`, and the next, from `u` to `v`, is the first stop, with the reason `r`. -/
structure StopsAfter (n : Nat) (s u v : State) (r : StopReason) : Prop where
  stepsOn : StepsOn n s u
  step : step u = .next v
  stop : stopReason u v = some r

theorem StepsOn.trans {m : Nat} (h : StepsOn n s t) (h' : StepsOn m t u) : StepsOn (n + m) s u := by
  induction h with
  | refl s => rwa [Nat.zero_add]
  | head hstep hstop _ ih =>
    rw [Nat.add_right_comm]
    exact .head hstep hstop (ih h')

theorem StepsOn.ready (h : StepsOn n s u) (hs : s.status = .ready) : u.status = .ready := by
  induction h with
  | refl s => exact hs
  | head _ hstop _ ih => exact ih (stopReason_eq_none_iff.1 hstop).1

/-- No step of these suspends, so each commutes with more in the queues. -/
theorem StepsOn.withQueued (front back : List Cell) (h : StepsOn n s u) :
    StepsOn n (s.withQueued front back) (u.withQueued front back) := by
  induction h with
  | refl s => exact .refl _
  | @head _ w _ _ hstep hstop _ ih =>
    obtain ⟨-, hsusp⟩ := stopReason_eq_none_iff.1 hstop
    have hwait : w.suspends = true → back = [] := by simp [hsusp]
    exact .head (step_withQueued hwait hstep) ((stopReason_withQueued hwait).trans hstop) ih

/-- A stop commutes with more in the output queue. -/
theorem StopsAfter.withOutput (front : List Cell) (h : StopsAfter n s u v r) :
    StopsAfter n (s.withQueued front []) (u.withQueued front []) (v.withQueued front []) r :=
  ⟨h.stepsOn.withQueued front [], step_withQueued (fun _ => rfl) h.step,
    (stopReason_withQueued fun _ => rfl).trans h.stop⟩

theorem resumeLoop_of_stepsOn (h : StepsOn n s u) (fuel : Nat) : resumeLoop (n + fuel) s = resumeLoop fuel u := by
  induction h with
  | refl s => rw [Nat.zero_add]
  | head hstep hstop _ ih =>
    rw [Nat.add_right_comm]
    simp only [resumeLoop, hstep, hstop, ih]

theorem resumeLoop_of_stopsAfter (h : StopsAfter n s u v r) (hn : n < fuel) :
    resumeLoop fuel s = .returned v.outq r (v.setOutq []) := by
  obtain ⟨k, rfl⟩ := Nat.exists_eq_add_of_lt hn
  rw [Nat.add_assoc, resumeLoop_of_stepsOn h.stepsOn]
  simp only [resumeLoop, h.step, h.stop]

/-- Everything the loop of a resume on a ready machine can return: what its first stop leaves. -/
theorem resumeLoop_eq_returned_iff {out : List Cell} (hs : s.status = .ready) :
    resumeLoop fuel s = .returned out r t ↔
      ∃ n u v, n < fuel ∧ StopsAfter n s u v r ∧ out = v.outq ∧ t = v.setOutq [] := by
  constructor
  · intro h
    induction fuel generalizing s with
    | zero => cases h
    | succ fuel ih =>
      obtain ⟨w, hstep⟩ := step_answers_of_ready hs
      cases hstop : stopReason s w with
      | some r' =>
        simp only [resumeLoop, hstep, hstop, ResumeResult.returned.injEq] at h
        obtain ⟨rfl, rfl, rfl⟩ := h
        exact ⟨0, s, w, Nat.succ_pos fuel, ⟨.refl s, hstep, hstop⟩, rfl, rfl⟩
      | none =>
        simp only [resumeLoop, hstep, hstop] at h
        obtain ⟨n, u, v, hn, ⟨hsteps, hlast, hreason⟩, hout, ht⟩ := ih (stopReason_eq_none_iff.1 hstop).1 h
        exact ⟨n + 1, u, v, Nat.succ_lt_succ hn, ⟨.head hstep hstop hsteps, hlast, hreason⟩, hout, ht⟩
  · rintro ⟨n, u, v, hn, h, rfl, rfl⟩
    exact resumeLoop_of_stopsAfter h hn

theorem State.resume_of_ready (hs : s.status = .ready) (fuel : Nat) (xs : List Cell) :
    s.resume fuel xs = resumeLoop fuel (s.setInq (s.inq ++ xs)) := by
  simp only [State.resume, hs]

/-- Everything a resume of a ready machine can return. -/
theorem State.resume_eq_returned_iff {xs out : List Cell} (hs : s.status = .ready) :
    s.resume fuel xs = .returned out r t ↔
      ∃ n u v, n < fuel ∧ StopsAfter n (s.setInq (s.inq ++ xs)) u v r ∧ out = v.outq ∧ t = v.setOutq [] := by
  rw [State.resume_of_ready hs]
  exact resumeLoop_eq_returned_iff hs

theorem State.resume_of_faulted {f : FaultRecord} (hs : s.status = .faulted f) (fuel : Nat) (xs : List Cell) :
    s.resume fuel xs = .returned [] (.faulted f) s := by
  simp only [State.resume, hs]

theorem State.ready_of_resume_suspended {xs out : List Cell} (h : s.resume fuel xs = .returned out .suspended t) :
    s.status = .ready := by
  cases hs : s.status with
  | ready => rfl
  | halted => simp [State.resume_of_halted hs] at h
  | faulted f => simp [State.resume_of_faulted hs] at h

/-- A resume that suspends ends where it stands at its suspension point, but for the emptied output queue. -/
theorem exists_of_resume_suspended {xs out : List Cell} (h : s.resume fuel xs = .returned out .suspended t) :
    ∃ n u, StepsOn n (s.setInq (s.inq ++ xs)) u ∧ u.suspends = true ∧ out = u.outq ∧ t = u.setOutq [] := by
  have hs := State.ready_of_resume_suspended h
  obtain ⟨n, u, v, -, hrun, rfl, rfl⟩ := (State.resume_eq_returned_iff hs).1 h
  obtain rfl := eq_of_suspended_stop hrun.step hrun.stop
  exact ⟨n, v, hrun.stepsOn, (stopReason_eq_suspended_iff.1 hrun.stop).2, rfl, rfl⟩

end

/-! ### Suspension and resumption (60_exceptions R137, R138, R153) -/

/-- Settles O44: the suspension point is a fetched IN with an empty queue, and emptying the output queue keeps that. -/
theorem onlyInputSuspends : Obligations.OnlyInputSuspends := by
  intro s t fuel xs out h
  obtain ⟨n, u, -, hsusp, -, rfl⟩ := exists_of_resume_suspended h
  obtain ⟨hf, hq, hd⟩ := State.suspends_iff.1 hsusp
  exact ⟨hf, hq, hd⟩

/-- The second resume of a split one runs from where the joined one gets to, but for the output queue: that holds what
the first resume has handed over. -/
theorem State.withQueued_of_resumed (s : State) (ys : List Cell) :
    s.withQueued [] ys = ((s.setOutq []).setInq ((s.setOutq []).inq ++ ys)).withQueued s.outq [] := by
  simp [State.withQueued, State.setInq, State.setOutq]

/-- Settles O47: the steps of the first resume commute with the later input behind the queue, those of the second with
the earlier output ahead of it; joined, they are the run of the one resume. -/
theorem suspendedResumeEqualsOneResume : Obligations.SuspendedResumeEqualsOneResume := by
  intro s t w k m xs ys out out' r h h'
  have hs := State.ready_of_resume_suspended h
  obtain ⟨n, u, hsteps, hsusp, rfl, rfl⟩ := exists_of_resume_suspended h
  obtain ⟨⟨hu, -, -⟩, -, -⟩ := State.suspends_iff.1 hsusp
  obtain ⟨n', u', v, -, hrun, rfl, rfl⟩ := (State.resume_eq_returned_iff (s := u.setOutq []) hu).1 h'
  obtain ⟨hsteps', hlast, hstop⟩ := hrun.withOutput u.outq
  have hfirst := hsteps.withQueued [] ys
  rw [State.withQueued_of_resumed u ys] at hfirst
  have hjoined : (s.setInq (s.inq ++ xs)).withQueued [] ys = s.setInq (s.inq ++ (xs ++ ys)) := by
    simp [State.withQueued, State.setInq]
  refine ⟨n + n' + 1, ?_⟩
  rw [State.resume_of_ready hs, ← hjoined,
    resumeLoop_of_stopsAfter ⟨hfirst.trans hsteps', hlast, hstop⟩ (Nat.lt_succ_self _)]
  simp [State.withQueued, State.setOutq]

/-- More fuel does not change what a resume returns. -/
theorem State.resume_mono {s t : State} {k m : Nat} {xs out : List Cell} {r : StopReason} (hkm : k ≤ m)
    (h : s.resume k xs = .returned out r t) : s.resume m xs = .returned out r t := by
  cases hs : s.status with
  | ready =>
    rw [State.resume_eq_returned_iff hs] at h ⊢
    obtain ⟨n, u, v, hn, hrun⟩ := h
    exact ⟨n, u, v, Nat.lt_of_lt_of_le hn hkm, hrun⟩
  | halted => rwa [State.resume_of_halted hs] at h ⊢
  | faulted f => rwa [State.resume_of_faulted hs] at h ⊢

/-- Settles O48: both resumes return what the one with the larger fuel does. -/
theorem resumeReturnsOneResult : Obligations.ResumeReturnsOneResult := by
  intro s t u k m xs out out' r r' h h'
  have hmax := State.resume_mono (Nat.le_max_left k m) h
  have hmax' := State.resume_mono (Nat.le_max_right k m) h'
  simpa using hmax.symm.trans hmax'

/-! ### The output of a run (60_exceptions R134, R140; 41_io R101, R103) -/

section
variable {s t u v : State} {r : StopReason} {n : Nat}

theorem State.outputOf_of_not_fetches (s : State) (h : ¬ s.Fetches) : s.outputOf = [] := if_neg h

theorem State.outputOf_of_not_out (s : State) (h : ∀ a, s.decodeAt s.pc.toNat ≠ .ok (.out a)) : s.outputOf = [] := by
  unfold State.outputOf
  split
  · split
    · next a hd => exact absurd hd (h a)
    · rfl
  · rfl

theorem State.outputOf_out {a : Operand} (hf : s.Fetches) (hd : s.decodeAt s.pc.toNat = .ok (.out a)) :
    s.outputOf = if firstEvent (s.operandEvents .read 1 a) = none then [s.operandValue a] else [] := by
  unfold State.outputOf
  rw [State.Fetches] at hf
  rw [if_pos hf, hd]

/-- OUT appends its value if its operand has no fault event, and nothing otherwise. -/
theorem exec_out_outq {a : Operand} (h : exec (.out a) s = .next t) :
    t.outq = s.outq ++ if firstEvent (s.operandEvents .read 1 a) = none then [s.operandValue a] else [] := by
  cases he : firstEvent (s.operandEvents .read 1 a) with
  | none =>
    rw [exec_out_of_resolves (State.operandEvents_none.1 he), Host.Outcome.next.injEq] at h
    simp [← h]
  | some tr =>
    rw [exec_out_of_event he, Host.Outcome.next.injEq] at h
    simp [← h]

/-- Only OUT changes the output queue (41_io R101). -/
theorem exec_outq_of_not_out {i : Instr} (hi : i.op ≠ .out) (h : exec i s = .next t) : t.outq = s.outq := by
  cases i with
  | add a b d | mul a b d | lt a b d | eq a b d =>
    obtain ⟨-, -, -, houtq, -⟩ := aluFrame s t a b d _ (by simp) h
    exact houtq
  | inp d =>
    obtain ⟨-, -, houtq, -⟩ := inFrame s t d h
    exact houtq
  | jt | jf | arb | hlt =>
    obtain ⟨-, -, -, houtq, -⟩ := nonStoringFrame s t _ (by simp [Instr.op]) h
    exact houtq hi
  | out a => exact absurd rfl hi

theorem exists_out_of_op {i : Instr} (h : i.op = .out) : ∃ a, i = .out a := by
  cases i <;> simp [Instr.op] at h ⊢

theorem step_outq (h : step s = .next t) : t.outq = s.outq ++ s.outputOf := by
  obtain ⟨hs, rfl⟩ | ⟨-, hpc, rfl⟩ | ⟨-, -, hext, rfl⟩ | ⟨-, r, hr, rfl⟩ | ⟨hf, i, hd, hx⟩ := step_cases h
  · have hno : ¬ t.Fetches := fun ⟨hready, _⟩ => by simp [hs] at hready
    simp [t.outputOf_of_not_fetches hno]
  · have hno : ¬ s.Fetches := fun ⟨_, h0, _⟩ => by omega
    simp [s.outputOf_of_not_fetches hno]
  · have hno : ¬ s.Fetches := fun ⟨_, _, hlt⟩ => by omega
    simp [s.outputOf_of_not_fetches hno]
  · simp [s.outputOf_of_not_out fun a => by simp [hr]]
  · by_cases hi : i.op = .out
    · obtain ⟨a, rfl⟩ := exists_out_of_op hi
      rw [exec_out_outq hx, State.outputOf_out hf hd]
    · have hno : ∀ a, s.decodeAt s.pc.toNat ≠ .ok (.out a) := fun a ha =>
        hi (Except.ok.inj (hd.symm.trans ha) ▸ rfl)
      rw [s.outputOf_of_not_out hno, List.append_nil, exec_outq_of_not_out hi hx]

theorem StepsOn.forall_stepsFrom (h : StepsOn n s u) : ∀ w ∈ stepsFrom n s, w.status = .ready ∧ w.suspends = false := by
  induction h with
  | refl s => simp
  | head hstep hstop _ ih =>
    rw [stepsFrom_next _ hstep, List.forall_mem_cons]
    exact ⟨⟨ready_of_stopReason_none hstep hstop, (stopReason_eq_none_iff.1 hstop).2⟩, ih⟩

theorem StepsOn.outq (h : StepsOn n s u) : u.outq = s.outq ++ (stepsFrom n s).flatMap State.outputOf := by
  induction h with
  | refl s => simp
  | head hstep _ _ ih => rw [stepsFrom_next _ hstep, List.flatMap_cons, ih, step_outq hstep, List.append_assoc]

theorem StepsOn.stepsFrom_succ (h : StepsOn n s u) (hlast : step u = .next v) :
    stepsFrom (n + 1) s = stepsFrom n s ++ [u] := by
  induction h with
  | refl s => exact stepsFrom_next 0 hlast
  | head hstep _ _ ih => rw [stepsFrom_next _ hstep, ih hlast, stepsFrom_next _ hstep, List.cons_append]

/-- The states a run's steps start from: those before its last one, then that one. -/
theorem StopsAfter.stepsFrom_succ (h : StopsAfter n s u v r) : stepsFrom (n + 1) s = stepsFrom n s ++ [u] :=
  h.stepsOn.stepsFrom_succ h.step

theorem StopsAfter.getLast?_stepsFrom (h : StopsAfter n s u v r) : (stepsFrom (n + 1) s).getLast? = some u := by
  rw [h.stepsFrom_succ, List.getLast?_concat]

theorem StopsAfter.forall_ready (h : StopsAfter n s u v r) (hs : s.status = .ready) :
    ∀ w ∈ stepsFrom (n + 1) s, w.status = .ready := by
  intro w hw
  rw [h.stepsFrom_succ, List.mem_append, List.mem_singleton] at hw
  obtain hw | rfl := hw
  · exact (h.stepsOn.forall_stepsFrom w hw).1
  · exact h.stepsOn.ready hs

theorem StopsAfter.forall_dropLast (h : StopsAfter n s u v r) :
    ∀ w ∈ (stepsFrom (n + 1) s).dropLast, w.suspends = false := by
  rw [h.stepsFrom_succ, List.dropLast_concat]
  exact fun w hw => (h.stepsOn.forall_stepsFrom w hw).2

theorem StopsAfter.outq (h : StopsAfter n s u v r) :
    v.outq = s.outq ++ (stepsFrom (n + 1) s).flatMap State.outputOf := by
  rw [step_outq h.step, h.stepsOn.outq, h.stepsFrom_succ, List.flatMap_append, List.flatMap_singleton,
    List.append_assoc]

end

/-- Settles O49: the run's steps start from the states before its first stop, each ready and no suspension, and every
step appends its output. -/
theorem resumeReturnsAndDrainsTheOutput : Obligations.ResumeReturnsAndDrainsTheOutput := by
  intro s t fuel xs out r hs h
  obtain ⟨n, u, v, hn, hrun, rfl, rfl⟩ := (State.resume_eq_returned_iff hs).1 h
  exact ⟨n + 1, u, v, hn, hrun.getLast?_stepsFrom, hrun.forall_ready hs, hrun.forall_dropLast, hrun.step,
    stopsWith_of_stopReason hrun.step hrun.stop, rfl, hrun.outq⟩

/-! ### Fault codes and the permanence of a fault (60_exceptions R130, R133) -/

theorem FaultCode.number_injective : Function.Injective FaultCode.number := by
  intro c d
  cases c <;> cases d <;> decide

theorem FaultCode.number_ne_zero (c : FaultCode) : c.number ≠ 0 := by
  cases c <;> decide

/-- Settles O29: the codes are read off the numbering, which is injective and begins at 1. -/
theorem faultCodesAreOneToSix : Obligations.FaultCodesAreOneToSix :=
  ⟨⟨rfl, rfl, rfl, rfl, rfl, rfl⟩, fun c _ => ⟨c.number_ne_zero, fun h => FaultCode.number_injective h⟩⟩

/-- `t` has crashed with the record of `s` if `s` has crashed. -/
def State.FaultFollows (s t : State) : Prop := ∀ f, s.status = .faulted f → t.status = .faulted f

/-- A crashed machine has no next state. -/
theorem faultFollows_of_step {s t : State} (h : step s = .next t) : s.FaultFollows t := by
  intro f hs
  rw [step_of_faulted hs] at h
  cases h

theorem State.faultFollows_of_poke {s t : State} {a : Int} {v : Cell} (h : s.poke a v = some t) : s.FaultFollows t := by
  obtain ⟨-, -, rfl⟩ := State.poke_some h
  exact fun _ => id

theorem State.faultFollows_transact (s : State) (fuel : Nat) (tx : Transaction) :
    s.FaultFollows (s.transact fuel tx).2 :=
  State.transact_rel (P := State.FaultFollows) (fun _ _ => id) (fun _ _ _ hst htu f hs => htu f (hst f hs))
    (fun _ _ => faultFollows_of_step) (fun _ _ _ => id) (fun _ _ _ => id) (fun _ _ _ _ => State.faultFollows_of_poke)
    s fuel tx

/-- Settles O30: no transaction takes a crashed machine out of its status, and a resume of one answers its record. -/
theorem faultIsPermanent : Obligations.FaultIsPermanent := by
  intro s f fuel hs
  refine ⟨fun tx => s.faultFollows_transact fuel tx f hs, fun xs => ?_⟩
  simp only [State.transact, State.resume_of_faulted hs]

/-! ### Push, queries, peek and poke (60_exceptions R141 to R144) -/

/-- Settles O54: the transaction is the one write of the input queue. -/
theorem pushAppendsToTheInput : Obligations.PushAppendsToTheInput := fun _ _ _ => rfl

/-- An instruction that halts a machine is HLT (43_base_halt R121). -/
theorem hlt_of_exec_halted {i : Instr} {s t : State} (h : exec i s = .next t) (hs : s.status ≠ .halted)
    (ht : t.status = .halted) : i = .hlt := by
  obtain (⟨tr, rfl⟩ | hc) | ⟨-, -, rfl⟩ | ⟨hi, -⟩ := exec_cases h
  · cases ht
  · exact absurd (hc.status.symm.trans ht) hs
  · exact absurd ht hs
  · exact hi

/-- Settles O55: the queries answer from the status; of the ways a step can end, the implicit halt and HLT halt. -/
theorem queriesAnswerTheStatus : Obligations.QueriesAnswerTheStatus := by
  refine ⟨fun _ _ => ⟨rfl, rfl⟩, fun s t h hs ht => ?_⟩
  obtain ⟨hhalt, -⟩ | ⟨-, -, rfl⟩ | ⟨hready, hpc, hext, -⟩ | ⟨-, r, -, rfl⟩ | ⟨⟨hready, hpc, hext⟩, i, hd, hx⟩ :=
    step_cases h
  · exact absurd hhalt hs
  · cases ht
  · exact ⟨hready, hpc, .inl hext⟩
  · cases ht
  · obtain rfl := hlt_of_exec_halted hx hs ht
    exact ⟨hready, hpc, .inr ⟨hext, hd⟩⟩

/-- Settles O56: the check of a peek is the range below the limit. -/
theorem peekReadsBelowTheLimit : Obligations.PeekReadsBelowTheLimit := by
  refine fun s fuel a => ⟨fun h0 hl => ?_, fun hout => ?_⟩
  · simp only [State.transact, State.peek, if_pos (And.intro h0 hl)]
  · have hrange : ¬ (0 ≤ a ∧ a < s.addrLimit) := by omega
    simp only [State.transact, State.peek, if_neg hrange]

theorem State.transact_poke {s : State} {a : Int} (fuel : Nat) (h0 : 0 ≤ a) (hl : a < s.addrLimit) (v : Cell) :
    s.transact fuel (.poke a v) = (.nothing, (s.setMem (s.mem.write a.toNat v)).setExt (s.grown s.ext a)) := by
  simp only [State.transact, State.poke_eq_some h0 hl]

/-- Settles O57: an accepted poke writes its cell, and its extent is that of an access there; the range check refuses
any other. -/
theorem pokeWritesOneCell : Obligations.PokeWritesOneCell := by
  refine fun s fuel a v hm => ⟨fun h0 hl => ?_, fun hout => ?_⟩
  · refine ⟨_, State.transact_poke fuel h0 hl v, fun c => ?_, fun hp => ?_, fun hp => ?_,
      rfl, rfl, rfl, rfl, rfl, rfl⟩
    · have hc : c = a.toNat ↔ (c : Int) = a := by omega
      simp only [State.setExt_mem, State.setMem_mem, Memory.read_write hm, hc]
    · simp [State.grown_eq s s.ext h0, hp]
    · simp [State.grown_eq s s.ext h0, hp]
  · have hrange : ¬ (0 ≤ a ∧ a < s.addrLimit) := by omega
    simp only [State.transact, State.poke, if_neg hrange]

end Sys2Proof.Machine

/-! PROOFS. The load text (70_reset R171, R172): the parser accepts exactly the load texts, each with its program, and
construction from a text is refused exactly on a load error. -/

namespace Sys2Proof.Machine

/-! ### Base-10 integers -/

section
variable {t : List Char} {acc n : Nat} {v : Int}

/-- The test of `digitsValue` is that of the library's digit characters. -/
theorem digitsValue_cons (acc : Nat) (c : Char) (t : List Char) : digitsValue acc (c :: t) =
    if c.isDigit then digitsValue (10 * acc + (c.toNat - '0'.toNat)) t else none := by
  have hdigit : ('0' ≤ c ∧ c ≤ '9') ↔ c.isDigit = true := by simp [Char.isDigit, Char.le_def]
  simp only [digitsValue, hdigit]

theorem exists_digitChar_of_isDigit {c : Char} (h : c.isDigit = true) : ∃ d < 10, c = Nat.digitChar d := by
  have hrange : 48 ≤ c.toNat ∧ c.toNat ≤ 57 := Char.isDigit_iff_toNat.1 h
  have hchar : ∀ d < 10, Char.ofNat (d + 48) = Nat.digitChar d := by decide
  refine ⟨c.toNat - 48, by omega, ?_⟩
  rw [← hchar _ (by omega), Nat.sub_add_cancel hrange.1, Char.ofNat_toNat]

/-- The characters `digitsValue` accepts are digits, and its value is theirs, most significant first. -/
theorem digitsValue_eq_some_iff : digitsValue acc t = some n ↔
    ∃ ds : List Nat, (∀ d ∈ ds, d < 10) ∧ t = ds.map Nat.digitChar ∧ n = ds.foldl (fun n d => 10 * n + d) acc := by
  constructor
  · intro h
    induction t generalizing acc with
    | nil => exact ⟨[], by simp, rfl, (Option.some.inj h).symm⟩
    | cons c t ih =>
      rw [digitsValue_cons] at h
      split at h
      next hc =>
        obtain ⟨d, hd, rfl⟩ := exists_digitChar_of_isDigit hc
        obtain ⟨ds, hds, rfl, rfl⟩ := ih h
        refine ⟨d :: ds, by simpa using ⟨hd, hds⟩, rfl, ?_⟩
        simp [Nat.toNat_digitChar_sub_48_of_lt_ten hd]
      next => cases h
  · rintro ⟨ds, hds, rfl, rfl⟩
    induction ds generalizing acc with
    | nil => rfl
    | cons d ds ih =>
      obtain ⟨hd, hds⟩ := List.forall_mem_cons.1 hds
      simp [digitsValue_cons, Nat.isDigit_digitChar, hd, Nat.toNat_digitChar_sub_48_of_lt_ten hd, ih hds]

/-- On digits `digitsValue` is the library's `Nat.ofDigitChars`. -/
theorem digitsValue_of_forall_isDigit (h : ∀ c ∈ t, c.isDigit = true) :
    digitsValue acc t = some (Nat.ofDigitChars 10 t acc) := by
  induction t generalizing acc with
  | nil => rfl
  | cons c t ih =>
    obtain ⟨hc, ht⟩ := List.forall_mem_cons.1 h
    rw [digitsValue_cons, if_pos hc, ih ht, Nat.ofDigitChars_cons]

theorem digitsValue_toDigits (n : Nat) : digitsValue 0 (Nat.toDigits 10 n) = some n := by
  have hdigits : ∀ c ∈ Nat.toDigits 10 n, c.isDigit = true :=
    fun c hc => Nat.isDigit_of_mem_toDigits (by decide) (by decide) hc
  rw [digitsValue_of_forall_isDigit hdigits, Nat.ofDigitChars_ten_toDigits]

/-- A base-10 integer is a nonempty piece that `digitsValue` accepts, after a minus sign or not. -/
theorem isDecimal_iff {piece : List Char} : IsDecimal piece v ↔ ∃ (t : List Char) (n : Nat), t ≠ [] ∧
    digitsValue 0 t = some n ∧ ((piece = t ∧ v = n) ∨ (piece = '-' :: t ∧ v = -(n : Int))) := by
  constructor
  · rintro ⟨ds, hne, hds, h⟩
    exact ⟨_, _, by simpa using hne, digitsValue_eq_some_iff.2 ⟨ds, hds, rfl, rfl⟩, h⟩
  · rintro ⟨t, n, hne, hn, h⟩
    obtain ⟨ds, hds, rfl, rfl⟩ := digitsValue_eq_some_iff.1 hn
    exact ⟨ds, by simpa using hne, hds, h⟩

theorem integerValue_minus (ht : t ≠ []) :
    integerValue ('-' :: t) = (digitsValue 0 t).map fun n : Nat => -(n : Int) := by
  simp only [integerValue, if_neg ht]

theorem integerValue_cons {c : Char} (hc : c ≠ '-') :
    integerValue (c :: t) = (digitsValue 0 (c :: t)).map fun n : Nat => (n : Int) := by
  rw [integerValue]
  exact hc

/-- `integerValue` accepts the base-10 integers, each with its value. -/
theorem integerValue_eq_some_iff {piece : List Char} : integerValue piece = some v ↔ IsDecimal piece v := by
  rw [isDecimal_iff]
  constructor
  · intro h
    cases piece with
    | nil => cases h
    | cons c t =>
      by_cases hc : c = '-'
      · subst hc
        by_cases ht : t = []
        · subst ht; cases h
        · rw [integerValue_minus ht] at h
          obtain ⟨n, hn, rfl⟩ := Option.map_eq_some_iff.1 h
          exact ⟨t, n, ht, hn, .inr ⟨rfl, rfl⟩⟩
      · rw [integerValue_cons hc] at h
        obtain ⟨n, hn, rfl⟩ := Option.map_eq_some_iff.1 h
        exact ⟨c :: t, n, by simp, hn, .inl ⟨rfl, rfl⟩⟩
  · rintro ⟨t, n, hne, hn, ⟨rfl, rfl⟩ | ⟨rfl, rfl⟩⟩
    · obtain ⟨c, t, rfl⟩ := List.exists_cons_of_ne_nil hne
      have hc : c ≠ '-' := by
        rintro rfl
        cases hn
      rw [integerValue_cons hc, hn, Option.map_some]
    · rw [integerValue_minus hne, hn, Option.map_some]

theorem isDecimal_decimalText (v : Int) : IsDecimal (decimalText v) v := by
  refine isDecimal_iff.2 ⟨_, _, Nat.toDigits_ne_nil, digitsValue_toDigits v.natAbs, ?_⟩
  by_cases hv : v < 0
  · exact .inr ⟨if_pos hv, by omega⟩
  · exact .inl ⟨if_neg hv, by omega⟩

theorem IsDecimal.ne_nil {piece : List Char} (h : IsDecimal piece v) : piece ≠ [] := by
  rintro rfl
  cases integerValue_eq_some_iff.2 h

/-- A base-10 integer has neither white space nor a comma in it. -/
theorem IsDecimal.not_blank_not_comma {piece : List Char} (h : IsDecimal piece v) :
    ∀ ch ∈ piece, isBlank ch = false ∧ ch ≠ ',' := by
  obtain ⟨ds, -, hds, hpiece⟩ := h
  have hdigits : ∀ ch ∈ ds.map Nat.digitChar, isBlank ch = false ∧ ch ≠ ',' := by
    simp only [List.forall_mem_map]
    intro d hd
    have hall : ∀ d < 10, isBlank (Nat.digitChar d) = false ∧ Nat.digitChar d ≠ ',' := by decide
    exact hall d (hds d hd)
  obtain ⟨rfl, -⟩ | ⟨rfl, -⟩ := hpiece
  · exact hdigits
  · exact List.forall_mem_cons.2 ⟨by decide, hdigits⟩

end

/-! ### The pieces between the commas -/

theorem splitCommas_eq_splitOn (t : List Char) : splitCommas t = t.splitOn ',' := by
  induction t with
  | nil => simp [splitCommas]
  | cons c t ih =>
    obtain ⟨p, ps, hps⟩ := List.exists_cons_of_ne_nil (List.splitOn_ne_nil ',' t)
    simp only [splitCommas, ih, List.splitOn_cons_eq_if_modifyHead, hps, beq_iff_eq, List.modifyHead_cons]

section
variable {pieces : List (List Char)} {program : List Int}

theorem not_blank_not_comma_of_forall₂ (h : List.Forall₂ IsDecimal pieces program) :
    ∀ p ∈ pieces, ∀ ch ∈ p, isBlank ch = false ∧ ch ≠ ',' := by
  induction h with
  | nil => simp
  | cons hp _ ih => exact List.forall_mem_cons.2 ⟨hp.not_blank_not_comma, ih⟩

theorem isBlank_intercalate_eq_false (h : ∀ p ∈ pieces, ∀ ch ∈ p, isBlank ch = false) :
    ∀ ch ∈ [','].intercalate pieces, isBlank ch = false := by
  induction pieces with
  | nil => simp
  | cons p ps ih =>
    obtain ⟨hp, hps⟩ := List.forall_mem_cons.1 h
    by_cases hne : ps = []
    · simpa [hne] using hp
    · rw [List.intercalate_cons_of_ne_nil hne]
      simp only [List.forall_mem_append, List.forall_mem_singleton]
      exact ⟨⟨hp, by decide⟩, ih hps⟩

/-- Pieces that are base-10 integers are the pieces of the text they make. -/
theorem splitCommas_intercalate (h : List.Forall₂ IsDecimal pieces program) (hne : pieces ≠ []) :
    splitCommas ([','].intercalate pieces) = pieces := by
  rw [splitCommas_eq_splitOn]
  exact List.splitOn_intercalate ',' (fun p hp hcomma => (not_blank_not_comma_of_forall₂ h p hp ',' hcomma).2 rfl) hne

/-- Only no piece at all makes the empty text: a single empty piece is no integer. -/
theorem intercalate_ne_nil (h : List.Forall₂ IsDecimal pieces program) (hne : pieces ≠ []) :
    [','].intercalate pieces ≠ [] := by
  intro hnil
  have hpieces : pieces = [[]] := by rw [← splitCommas_intercalate h hne, hnil]; rfl
  subst hpieces
  obtain ⟨v, -, hv, -⟩ := List.forall₂_cons_left_iff.1 h
  exact hv.ne_nil rfl

/-- Reading every piece gives a program exactly when the pieces are its integers in order. -/
theorem mapM_integerValue_eq_some_iff :
    pieces.mapM integerValue = some program ↔ List.Forall₂ IsDecimal pieces program := by
  induction pieces generalizing program with
  | nil => simp [eq_comm]
  | cons p ps ih =>
    simp [List.forall₂_cons_left_iff, Option.bind_eq_some_iff, integerValue_eq_some_iff, ih, eq_comm (a := program)]

end

/-! ### The white space around a text (log 6) -/

theorem isBlank_iff {ch : Char} : isBlank ch = true ↔ ch ∈ [' ', '\n', '\r', '\t'] := by
  simp [isBlank, or_assoc]

theorem dropWhile_of_forall_not {α : Type} {p : α → Bool} {l : List α} (h : ∀ x ∈ l, p x = false) :
    l.dropWhile p = l :=
  List.dropWhile_eq_self_iff.2 fun hl => by simp [h l[0] (List.getElem_mem hl)]

/-- Trimming removes the white space around a text that has none of its own. -/
theorem trimText_surround {before body after : List Char} (hblank : ∀ ch ∈ before ++ after, isBlank ch = true)
    (hbody : ∀ ch ∈ body, isBlank ch = false) : trimText (before ++ body ++ after) = body := by
  obtain ⟨hbefore, hafter⟩ := List.forall_mem_append.1 hblank
  have hback : body.reverse.dropWhile isBlank = body.reverse :=
    dropWhile_of_forall_not fun ch hch => hbody ch (List.mem_reverse.1 hch)
  have hfront : ∀ ch ∈ after.reverse, isBlank ch = true := fun ch hch => hafter ch (List.mem_reverse.1 hch)
  unfold trimText
  rw [List.append_assoc, List.dropWhile_append_of_pos hbefore]
  cases body with
  | nil => simp [List.dropWhile_eq_nil_iff.2 hafter]
  | cons c body =>
    have hc : ¬ isBlank c = true := by simp [hbody c]
    rw [List.cons_append, List.dropWhile_cons_of_neg hc, ← List.cons_append, List.reverse_append,
      List.dropWhile_append_of_pos hfront, hback, List.reverse_reverse]

/-- A text is what trimming leaves of it with white space around. -/
theorem exists_surround_trimText (text : List Char) : ∃ before after : List Char,
    (∀ ch ∈ before ++ after, isBlank ch = true) ∧ text = before ++ trimText text ++ after := by
  refine ⟨text.takeWhile isBlank, (text.dropWhile isBlank).rtakeWhile isBlank, ?_, ?_⟩
  · exact List.forall_mem_append.2 ⟨fun _ => List.mem_takeWhile_imp, fun _ => List.mem_rtakeWhile_imp⟩
  · rw [List.append_assoc]
    exact (congrArg _ List.rdropWhile_append_rtakeWhile).trans List.takeWhile_append_dropWhile |>.symm

/-! ### The parser accepts exactly the load texts (70_reset R171) -/

theorem parseProgram_of_trimText_ne_nil {text : List Char} (h : trimText text ≠ []) :
    parseProgram text = (splitCommas (trimText text)).mapM integerValue := by
  unfold parseProgram
  split
  next hnil => exact absurd hnil h
  next => rfl

theorem parseProgram_of_trimText_nil {text : List Char} (h : trimText text = []) : parseProgram text = some [] := by
  simp only [parseProgram, h]

/-- A load text's program is unique, and the parser answers it; it answers nothing on any other text. -/
theorem parseProgram_eq_some_iff {text : List Char} {program : List Int} :
    parseProgram text = some program ↔ IsLoadText text program := by
  constructor
  · intro h
    obtain ⟨before, after, hblank, htext⟩ := exists_surround_trimText text
    have hspace : ∀ ch ∈ before ++ after, ch ∈ [' ', '\n', '\r', '\t'] := fun ch hch => isBlank_iff.1 (hblank ch hch)
    by_cases hnil : trimText text = []
    · obtain rfl := Option.some.inj ((parseProgram_of_trimText_nil hnil).symm.trans h)
      exact ⟨before, after, [], hspace, by simpa [hnil] using htext, .nil⟩
    · rw [parseProgram_of_trimText_ne_nil hnil] at h
      refine ⟨before, after, splitCommas (trimText text), hspace, ?_, mapM_integerValue_eq_some_iff.1 h⟩
      rwa [splitCommas_eq_splitOn, List.intercalate_splitOn]
  · rintro ⟨before, after, pieces, hspace, rfl, hpieces⟩
    have htrim : trimText (before ++ [','].intercalate pieces ++ after) = [','].intercalate pieces :=
      trimText_surround (fun ch hch => isBlank_iff.2 (hspace ch hch))
        (isBlank_intercalate_eq_false fun p hp ch hch => (not_blank_not_comma_of_forall₂ hpieces p hp ch hch).1)
    by_cases hne : pieces = []
    · subst hne
      obtain rfl := List.forall₂_nil_left_iff.1 hpieces
      exact parseProgram_of_trimText_nil htrim
    · rw [parseProgram_of_trimText_ne_nil (htrim.trans_ne (intercalate_ne_nil hpieces hne)), htrim,
        splitCommas_intercalate hpieces hne]
      exact mapM_integerValue_eq_some_iff.2 hpieces

theorem programText_eq_intercalate (program : List Int) :
    programText program = [','].intercalate (program.map decimalText) := by
  induction program with
  | nil => rfl
  | cons v vs ih =>
    cases vs with
    | nil => simp [programText]
    | cons w ws => simp [programText, ih]

/-- The text written for a program, with white space around it, is a load text of that program. -/
theorem isLoadText_programText {before after : List Char} (hblank : ∀ ch ∈ before ++ after, isBlank ch = true)
    (program : List Int) : IsLoadText (before ++ programText program ++ after) program := by
  refine ⟨before, after, program.map decimalText, fun ch hch => isBlank_iff.1 (hblank ch hch), ?_, ?_⟩
  · rw [programText_eq_intercalate]
  · exact List.forall₂_map_left_iff.2 (List.forall₂_same.2 fun v _ => isDecimal_decimalText v)

theorem constructFromText_of_parse {text : List Char} {program : List Int} (h : parseProgram text = some program)
    (c : Config) (input : List Cell) : constructFromText c text input = construct c program input := by
  simp only [constructFromText, h]

/-- Settles O53: the text is a load text of the program, so the parser answers the program. -/
theorem loadTextGivesItsProgram : Obligations.LoadTextGivesItsProgram := by
  intro program before after hblank
  have hparse := parseProgram_eq_some_iff.2 (isLoadText_programText hblank program)
  exact ⟨hparse, constructFromText_of_parse hparse⟩

/-! ### The refusals of construction (70_reset R172) -/

theorem Config.acceptable_eq_false_iff {c : Config} : c.acceptable = false ↔ c.memPolicy = .fixed ∧ c.cap = none := by
  cases hp : c.memPolicy <;> simp [Config.acceptable, hp]

theorem construct_eq_none_iff {c : Config} {program : List Int} {input : List Cell} :
    construct c program input = none ↔ (∃ v ∈ program, ¬ fits64 v) ∨ (c.memPolicy = .fixed ∧ c.cap = none) := by
  rw [← Config.acceptable_eq_false_iff, ← Bool.not_eq_true]
  simp only [construct, ite_eq_right_iff, reduceCtorEq, imp_false, not_and_or, not_forall, exists_prop, or_comm]

/-- Under Grow the empty program is accepted, and its instance starts with its pc at the extent (70_reset R172). -/
theorem exists_construct_nil {c : Config} (hp : c.memPolicy = .grow) (input : List Cell) : ∃ s,
    construct c [] input = some s ∧ s.status = .ready ∧ s.pc = 0 ∧ s.ext = 0 ∧ s.outq = [] := by
  have haccepted : construct c [] input ≠ none := by simp [construct_eq_none_iff, hp]
  obtain ⟨s, hs⟩ := Option.ne_none_iff_exists'.1 haccepted
  obtain ⟨-, -, rfl⟩ := construct_some hs
  exact ⟨_, hs, rfl, rfl, Config.initialExtent_grow hp 0, rfl⟩

/-- Settles O52: the parser refuses the texts that are no load text, construction the other two load errors; the empty
program's first fetch is the implicit halt. -/
theorem constructionIsRefusedExactlyOnLoadErrors : Obligations.ConstructionIsRefusedExactlyOnLoadErrors := by
  refine ⟨fun c text input => ?_, fun c input hp => ?_⟩
  · simp only [← parseProgram_eq_some_iff]
    cases hparse : parseProgram text with
    | none => simp [constructFromText, hparse]
    | some program =>
      rw [constructFromText_of_parse hparse, construct_eq_none_iff]
      simp
  · obtain ⟨s, hs, hready, hpc, hext, hout⟩ := exists_construct_nil hp input
    refine ⟨s, hs, hext, fun fuel => ⟨s.halt.setOutq [], ?_⟩⟩
    have hstep : step s = .next s.halt := step_of_ext_le_pc hready (by omega) (by omega)
    rw [State.resume_of_step_halt hready hstep fuel, hout]

end Sys2Proof.Machine
